-- ==== Sys2Proof/Word.lean ====
section
/-! DEFINITION. The widths of the block's fields (10_state.md R12, R13, R16, R20): nothing but names for bit vectors. -/

namespace Sys2Proof

/-- A 32-bit field of a beat (R20). -/
abbrev Word := BitVec 32

/-- An 8-bit field: OPC, IMM8 (R43), an encoder byte (R18). -/
abbrev Byte := BitVec 8

/-- A channel: an unsigned 8-bit intensity (R12). -/
abbrev Channel := BitVec 8

/-- A Led in the word layout of R13: red in bits 31:24, green in 23:16, blue in 15:8, white in 7:0. -/
abbrev Led := BitVec 32

/-- A field that holds an IEEE 754 binary32 value (R10, R16). -/
abbrev F32 := BitVec 32

end Sys2Proof
end

