-- ==== Sys2Proof/Syntax.lean ====
section
/-! DEFINITION. The command beat (10_state.md R20), the 20 commands (30_encoding.md R46) with the operands each one reads
(R45), what decoding answers (R47), the assembler's operands (R52) and the pseudo-instructions (R53). -/

namespace Sys2Proof

/-- One beat of the command channel (R20). -/
structure Beat where
  /-- the command word (R43) -/
  cmd : Word
  /-- Led operand A -/
  a : Led
  /-- Led operand B -/
  b : Led
  /-- binary32: the factor, or the red component -/
  f0 : F32
  /-- binary32: the green component -/
  f1 : F32
  /-- binary32: the blue component -/
  f2 : F32
deriving DecidableEq, Repr

/-- The commands of R46, each with the operand fields that R45 says it reads, and no others. -/
inductive Instr where
  | nop
  | ldl (a : Led)
  | ldl3 (a : Led)
  | addL (a b : Led)
  | subL (a b : Led)
  | mulL (a b : Led)
  | divL (a b : Led)
  | addS (a : Led) (s : Byte)
  | subS (a : Led) (s : Byte)
  | mulS (a : Led) (s : Byte)
  | divS (a : Led) (s : Byte)
  | addF (a : Led) (f : F32)
  | subF (a : Led) (f : F32)
  | mulF (a : Led) (f : F32)
  | divF (a : Led) (f : F32)
  | cvtL2F (a : Led)
  | cvtF2L (f0 f1 f2 : F32)
  | cvtF2S (f : F32)
  | enc (a : Led)
  | encl (a : Led)
deriving DecidableEq, Repr

/-- Why a command word is illegal (R98). The block reports none of this (R102): it names the rule. -/
inductive Illegal where
  /-- `cmd[31:16] ≠ 0` (R49) -/
  | rsvdNonzero
  /-- `cmd[15:8] ≠ 0` on a command that does not read it (R50) -/
  | imm8Nonzero
  /-- an OPC that R46 does not list (R48) -/
  | reservedOpc
deriving DecidableEq, Repr

/-- What decoding a beat answers (R47): one of the 20 commands, or ILL. -/
inductive Decoded where
  | legal (i : Instr)
  | ill (why : Illegal)
deriving DecidableEq, Repr

/-- A Led operand as the assembler writes it (R52): `0xRRGGBBWW` or `led(r, g, b, w)`. -/
inductive LedOperand where
  | word (w : Led)
  | led (r g b w : Channel)
deriving DecidableEq, Repr

/-- A float operand as the assembler writes it (R52): a decimal literal, the real number (±) num / den, meaning f32 of it,
or `bits(0xXXXXXXXX)`. -/
inductive FloatOperand where
  | decimal (negative : Bool) (num den : Nat)
  | bits (w : F32)
deriving DecidableEq, Repr

/-- A scalar operand as the assembler writes it (R52): `#s`. -/
inductive ScalarOperand where
  | imm (s : Nat)
deriving DecidableEq, Repr

/-- The pseudo-instructions of R53. `encf` takes the Leds of a frame before the last one, and the last one, so that a frame
has at least one Led (R53, D33). -/
inductive Pseudo where
  | zero
  | mkrgb (r g b : Channel)
  | mkrgbw (r g b w : Channel)
  | bcast (s : Byte)
  | encf (init : List Led) (last : Led)
deriving DecidableEq, Repr

end Sys2Proof
end

