-- ==== Sys2Proof/WellFormed.lean ====
section
/-! DEFINITION. Which command words are well formed (30_encoding.md R47 to R50), read off the mask and the match of each row of
spec/opcode_table.json and not off the decoder; which beats leave every unread field zero (R45, R52); which assembler
operands are admitted (R52). An Instr needs no check of its own: each operand's type is exactly the field the spec gives it. -/

namespace Sys2Proof

/-- A row of the opcode table: the mnemonic, the mask and the match (R47). -/
structure TableRow where
  mnemonic : String
  mask : Word
  word : Word
deriving DecidableEq, Repr

/-- The rows whose word is fixed whole: every command but the four `.S` ones (R46, R47). -/
def plainRows : List TableRow :=
  [⟨"NOP", 0xFFFFFFFF#32, 0x00000000#32⟩, ⟨"LDL", 0xFFFFFFFF#32, 0x00000001#32⟩,
   ⟨"LDL3", 0xFFFFFFFF#32, 0x00000002#32⟩,
   ⟨"ADD.L", 0xFFFFFFFF#32, 0x00000010#32⟩, ⟨"SUB.L", 0xFFFFFFFF#32, 0x00000011#32⟩,
   ⟨"MUL.L", 0xFFFFFFFF#32, 0x00000012#32⟩, ⟨"DIV.L", 0xFFFFFFFF#32, 0x00000013#32⟩,
   ⟨"ADD.F", 0xFFFFFFFF#32, 0x00000030#32⟩, ⟨"SUB.F", 0xFFFFFFFF#32, 0x00000031#32⟩,
   ⟨"MUL.F", 0xFFFFFFFF#32, 0x00000032#32⟩, ⟨"DIV.F", 0xFFFFFFFF#32, 0x00000033#32⟩,
   ⟨"CVT.L2F", 0xFFFFFFFF#32, 0x00000040#32⟩, ⟨"CVT.F2L", 0xFFFFFFFF#32, 0x00000041#32⟩,
   ⟨"CVT.F2S", 0xFFFFFFFF#32, 0x00000042#32⟩,
   ⟨"ENC", 0xFFFFFFFF#32, 0x00000050#32⟩, ⟨"ENCL", 0xFFFFFFFF#32, 0x00000051#32⟩]

/-- The rows whose word leaves IMM8 free: the four `.S` commands (R44, R47). -/
def scalarRows : List TableRow :=
  [⟨"ADD.S", 0xFFFF00FF#32, 0x00000020#32⟩, ⟨"SUB.S", 0xFFFF00FF#32, 0x00000021#32⟩,
   ⟨"MUL.S", 0xFFFF00FF#32, 0x00000022#32⟩, ⟨"DIV.S", 0xFFFF00FF#32, 0x00000023#32⟩]

/-- All 20 rows of the opcode table. -/
def tableRows : List TableRow := plainRows ++ scalarRows

/-- The word is one of the row's words: `(c & mask) == match` (R47). -/
def TableRow.selects (r : TableRow) (c : Word) : Bool := c &&& r.mask == r.word

/-- The mnemonic that the opcode table gives a command (R46). -/
def Instr.mnemonic : Instr → String
  | .nop => "NOP"
  | .ldl _ => "LDL"
  | .ldl3 _ => "LDL3"
  | .addL _ _ => "ADD.L"
  | .subL _ _ => "SUB.L"
  | .mulL _ _ => "MUL.L"
  | .divL _ _ => "DIV.L"
  | .addS _ _ => "ADD.S"
  | .subS _ _ => "SUB.S"
  | .mulS _ _ => "MUL.S"
  | .divS _ _ => "DIV.S"
  | .addF _ _ => "ADD.F"
  | .subF _ _ => "SUB.F"
  | .mulF _ _ => "MUL.F"
  | .divF _ _ => "DIV.F"
  | .cvtL2F _ => "CVT.L2F"
  | .cvtF2L _ _ _ => "CVT.F2L"
  | .cvtF2S _ => "CVT.F2S"
  | .enc _ => "ENC"
  | .encl _ => "ENCL"

/-- `cmd[31:16] = 0` (R49). -/
def rsvdZero (c : Word) : Bool := c &&& 0xFFFF0000#32 == 0#32

/-- The OPC is one that R46 lists (R48). -/
def opcAssigned (c : Word) : Bool := tableRows.any fun r => c &&& 0xFF#32 == r.word

/-- `cmd[15:8] = 0`, or the OPC is one of the four `.S` ones (R50). -/
def imm8Allowed (c : Word) : Bool :=
  c &&& 0xFF00#32 == 0#32 || scalarRows.any fun r => c &&& 0xFF#32 == r.word

/-- A command word that is not malformed (R47 to R50). -/
def wordWellFormed (c : Word) : Bool := rsvdZero c && opcAssigned c && imm8Allowed c

/-- A beat whose command word is well formed. -/
def Beat.wellFormed (b : Beat) : Bool := wordWellFormed b.cmd

/-- R45's column "reads" for field `a`: the OPCs of the commands that read it. -/
def opcsReadingA : List Word :=
  [0x01, 0x02, 0x10, 0x11, 0x12, 0x13, 0x20, 0x21, 0x22, 0x23, 0x30, 0x31, 0x32, 0x33, 0x40, 0x50, 0x51]

/-- R45's column "reads" for field `b`. -/
def opcsReadingB : List Word := [0x10, 0x11, 0x12, 0x13]

/-- R45's column "reads" for field `f0`. -/
def opcsReadingF0 : List Word := [0x30, 0x31, 0x32, 0x33, 0x41, 0x42]

/-- R45's column "reads" for fields `f1` and `f2`. -/
def opcsReadingF12 : List Word := [0x41]

/-- The beat's OPC is one of the list. -/
def Beat.opcIn (b : Beat) (l : List Word) : Bool := l.contains (b.cmd &&& 0xFF#32)

/-- A well-formed beat in which every field that its command does not read is 0, as the assembler writes it (R52). -/
def Beat.canonical (b : Beat) : Bool :=
  b.wellFormed && (b.opcIn opcsReadingA || b.a == 0#32) && (b.opcIn opcsReadingB || b.b == 0#32)
    && (b.opcIn opcsReadingF0 || b.f0 == 0#32) && (b.opcIn opcsReadingF12 || (b.f1 == 0#32 && b.f2 == 0#32))

/-- A scalar of the assembler lies in 0 ≤ s ≤ 255 (R52). -/
def ScalarOperand.wellFormed : ScalarOperand → Bool
  | .imm s => decide (s ≤ 255)

/-- A decimal literal is a real number: its denominator is not 0 (R10, R52). -/
def FloatOperand.wellFormed : FloatOperand → Bool
  | .decimal _ _ den => den != 0
  | .bits _ => true

end Sys2Proof
end

