-- ==== Sys2Proof/Decode.lean ====
section
/-! DEFINITION. Decoding (30_encoding.md R47), total, rejecting by name; the encoder written from the same tables (R43, R46, R52);
the expansion of the pseudo-instructions (R53); and the reading of a table word. -/

namespace Sys2Proof

/-- `OPC = cmd[7:0]` (R43). -/
def opcOf (c : Word) : Byte := c.extractLsb' 0 8

/-- `IMM8 = cmd[15:8]` (R43, R44). -/
def imm8Of (c : Word) : Byte := c.extractLsb' 8 8

/-- `RSVD = cmd[31:16]` (R43). -/
def rsvdOf (c : Word) : BitVec 16 := c.extractLsb' 16 16

/-- `cmdOf` (R46, R47) for the four commands that read IMM8, with the operands R45 names. -/
def scalarCommand (opc : Byte) (b : Beat) : Option Instr :=
  match opc with
  | 0x20#8 => some (.addS b.a (imm8Of b.cmd))
  | 0x21#8 => some (.subS b.a (imm8Of b.cmd))
  | 0x22#8 => some (.mulS b.a (imm8Of b.cmd))
  | 0x23#8 => some (.divS b.a (imm8Of b.cmd))
  | _ => none

/-- `cmdOf` (R46, R47) for the sixteen commands that do not read IMM8, with the operands R45 names. -/
def plainCommand (opc : Byte) (b : Beat) : Option Instr :=
  match opc with
  | 0x00#8 => some .nop
  | 0x01#8 => some (.ldl b.a)
  | 0x02#8 => some (.ldl3 b.a)
  | 0x10#8 => some (.addL b.a b.b)
  | 0x11#8 => some (.subL b.a b.b)
  | 0x12#8 => some (.mulL b.a b.b)
  | 0x13#8 => some (.divL b.a b.b)
  | 0x30#8 => some (.addF b.a b.f0)
  | 0x31#8 => some (.subF b.a b.f0)
  | 0x32#8 => some (.mulF b.a b.f0)
  | 0x33#8 => some (.divF b.a b.f0)
  | 0x40#8 => some (.cvtL2F b.a)
  | 0x41#8 => some (.cvtF2L b.f0 b.f1 b.f2)
  | 0x42#8 => some (.cvtF2S b.f0)
  | 0x50#8 => some (.enc b.a)
  | 0x51#8 => some (.encl b.a)
  | _ => none

/-- `decode` of R47, in the order that R47 writes its checks (which no one can observe: R102). -/
def decode (b : Beat) : Decoded :=
  if rsvdOf b.cmd ≠ 0#16 then .ill .rsvdNonzero
  else match scalarCommand (opcOf b.cmd) b with
    | some i => .legal i
    | none =>
      match plainCommand (opcOf b.cmd) b with
      | some i => if imm8Of b.cmd ≠ 0#8 then .ill .imm8Nonzero else .legal i
      | none => .ill .reservedOpc

/-- The command word `{16'h0000, imm8, opc}` (R43). -/
def commandWord (opc imm8 : Byte) : Word := 0#16 ++ imm8 ++ opc

/-- A beat with this command word and every operand field 0 (R52). -/
def bareBeat (opc imm8 : Byte) : Beat := ⟨commandWord opc imm8, 0, 0, 0, 0, 0⟩

/-- The beat the assembler makes of a command (R46, R52): the fields its form sets, and 0 elsewhere. -/
def encode : Instr → Beat
  | .nop => bareBeat 0x00 0
  | .ldl a => { bareBeat 0x01 0 with a := a }
  | .ldl3 a => { bareBeat 0x02 0 with a := a }
  | .addL a b => { bareBeat 0x10 0 with a := a, b := b }
  | .subL a b => { bareBeat 0x11 0 with a := a, b := b }
  | .mulL a b => { bareBeat 0x12 0 with a := a, b := b }
  | .divL a b => { bareBeat 0x13 0 with a := a, b := b }
  | .addS a s => { bareBeat 0x20 s with a := a }
  | .subS a s => { bareBeat 0x21 s with a := a }
  | .mulS a s => { bareBeat 0x22 s with a := a }
  | .divS a s => { bareBeat 0x23 s with a := a }
  | .addF a f => { bareBeat 0x30 0 with a := a, f0 := f }
  | .subF a f => { bareBeat 0x31 0 with a := a, f0 := f }
  | .mulF a f => { bareBeat 0x32 0 with a := a, f0 := f }
  | .divF a f => { bareBeat 0x33 0 with a := a, f0 := f }
  | .cvtL2F a => { bareBeat 0x40 0 with a := a }
  | .cvtF2L f0 f1 f2 => { bareBeat 0x41 0 with f0 := f0, f1 := f1, f2 := f2 }
  | .cvtF2S f => { bareBeat 0x42 0 with f0 := f }
  | .enc a => { bareBeat 0x50 0 with a := a }
  | .encl a => { bareBeat 0x51 0 with a := a }

/-- The commands a pseudo-instruction stands for (R53). -/
def Pseudo.expand : Pseudo → List Instr
  | .zero => [.ldl 0]
  | .mkrgb r g b => [.ldl3 (r ++ g ++ b ++ 0#8)]
  | .mkrgbw r g b w => [.ldl (r ++ g ++ b ++ w)]
  | .bcast s => [.addS 0 s]
  | .encf init last => init.map .enc ++ [.encl last]

/-- The beat whose six fields lie one after the other in a number, `cmd` in bits 31:0, then `a`, `b`, `f0`, `f1`, `f2`
(log 7). -/
def beatOfNat (w : Nat) : Beat :=
  ⟨.ofNat 32 w, .ofNat 32 (w >>> 32), .ofNat 32 (w >>> 64), .ofNat 32 (w >>> 96), .ofNat 32 (w >>> 128),
    .ofNat 32 (w >>> 160)⟩

/-- The beat of a table row's word of `nbits` bits: every bit above them is 0 (log 7). -/
def tableBeat (nbits w : Nat) : Beat := beatOfNat (w % 2 ^ nbits)

/-- The command the decoder reads from a table row's word. -/
def decodeTableWord (nbits w : Nat) : Option Instr :=
  match decode (tableBeat nbits w) with
  | .legal i => some i
  | .ill _ => none

end Sys2Proof
end

