-- ==== Sys2Proof/Config.lean ====
section
/-! DEFINITION. The open parameters of 00_scope.md R7. Each is a constant without a body, so no proof can see a value of it. -/

namespace Sys2Proof

/-- How many entries RQ can hold beyond the one that R19 guarantees (R7, D15, U5). Nothing is known of it (log 3). -/
opaque Config.rqSpare : Nat

/-- How many entries OQ can hold beyond the 32 that R18 guarantees (R7, D15, U6). Nothing is known of it (log 3). -/
opaque Config.oqSpare : Nat

/-- `RQ_DEPTH`, an integer ≥ 1: every such integer is of this form (R7, R19). -/
def Config.rqDepth : Nat := Config.rqSpare + 1

/-- `OQ_DEPTH`, an integer ≥ 32: every such integer is of this form (R7, R18). -/
def Config.oqDepth : Nat := Config.oqSpare + 32

/-- `LAT`, cycles from acceptance to response valid (R7). No rule depends on it, and no step reads it (R6, R121, U4; log 4). The spec gives
it no domain: that it is a whole number of cycles is the model's, DESIGN CHOICE (log 18). -/
opaque Config.lat : Nat

/-- `F_BIT`, the downstream's bit clock in Hz (R7, R91, U7). No step of the block reads it (log 4). The spec gives it no domain: that it is a rational number
is the model's, DESIGN CHOICE (log 18). -/
opaque Config.fBit : ℚ

/-- `T_LATCH`, the minimum low time after a frame in seconds (R7, R94, U8). No step of the block reads it (log 4). The spec gives it no domain: that it is a
rational number is the model's, DESIGN CHOICE (log 18). -/
opaque Config.tLatch : ℚ

/-- The nominal bit clock, 6.4 MHz, in Hz (R7, R91). -/
def Config.fBitNominal : ℚ := 6400000

/-- The nominal latch interval, 80 µs, in seconds (R7, R94). -/
def Config.tLatchNominal : ℚ := 80 / 1000000

end Sys2Proof
end

