-- ==== Sys2Proof/Machine/State.lean ====
section
/-! DEFINITION. The block's state, the pair (RQ, OQ) of 10_state.md R17, and beside it, as plain data, what the other agents
drive: the input pins, the beats the host offers, the plan that says which enabled step is taken next (R24; log 1), and the
history since the last reset that R36, R37 and R87 speak of (log 9). The stops. The state after reset (R29). -/

namespace Sys2Proof.Machine

/-- `rsp_st` (R21): `0b00` OK and `0b01` ILL. The codes `0b10` and `0b11` are never produced (R98), so no constructor stands
for them (U22). -/
inductive Status where
  | ok
  | ill
deriving DecidableEq, Repr

/-- A response entry (R19). -/
structure Response where
  st : Status
  res : Led
  fo0 : F32
  fo1 : F32
  fo2 : F32
deriving DecidableEq, Repr

/-- An entry of OQ, one encoder beat (R18, R22). -/
structure EncBeat where
  data : Byte
  last : Bool
deriving DecidableEq, Repr

/-- The input signals other than the command channel's (R21, R22, R23). -/
structure Pins where
  rst : Bool
  rspReady : Bool
  encReady : Bool
deriving DecidableEq, Repr

/-- What happens at one moment: a step of the block (R25, R26, R27, R113), or the agents around it driving its pins anew. -/
inductive Turn where
  /-- `Accept` of the beat the host offers (R25) -/
  | accept
  /-- `Respond` (R26) -/
  | respond
  /-- `Emit` (R27) -/
  | emit
  /-- a rising edge of clk at which rst = 1 (R112, R113) -/
  | reset
  /-- no step of the block: the agents that drive rst, rsp_ready and enc_ready change them (log 1) -/
  | drive (p : Pins)
deriving DecidableEq, Repr

/-- Why the step that the plan names is NOT ENABLED. None of these is a fault of the hardware: the spec calls the case stuck and gives it
no step (R118, U13), and an Outcome says so by a named stop (log 2). All are safe: the model stops where the block waits. -/
inductive Fault where
  /-- Raised by step: the plan is at its end although a beat is offered or an entry waits. Safe: nothing is claimed of what comes later. -/
  | noTurn
  /-- Raised by step: the plan is at its end, no beat is offered and both queues are empty, which is the end of a run (R122). Safe. -/
  | runEnded
  /-- Raised by Accept: the host offers no beat (R25). Safe: the block waits (R111). -/
  | noOffer
  /-- Raised by Accept, Respond and Emit: rst = 1, so cmd_ready, rsp_valid and enc_valid are 0 (R112). Safe. -/
  | inReset
  /-- Raised by Accept: RQ is full, so cmd_ready = 0 and the beat waits (R25, R118). Safe. -/
  | rqFull
  /-- Raised by ENC and ENCL: OQ has fewer than 32 free entries, so the beat waits (R25, R118). Safe. -/
  | oqFull
  /-- Raised by Respond: RQ is empty, rsp_valid = 0 (R26). Safe. -/
  | rqEmpty
  /-- Raised by Respond: the host is not ready (R26). Safe. -/
  | hostNotReady
  /-- Raised by Emit: OQ is empty, enc_valid = 0 (R27). Safe. -/
  | oqEmpty
  /-- Raised by Emit: the downstream is not ready (R27). Safe. -/
  | downstreamNotReady
  /-- Raised by reset: rst = 0 at the edge, so no reset happens (R112). Safe. -/
  | notInReset
deriving DecidableEq, Repr

/-- What the model does not admit. -/
inductive Refusal where
  /-- Raised by no arm of exec as it stands: the name an instruction without a meaning would be rejected under. Safe. -/
  | notModelled (mnemonic : String)
  /-- Raised by step: more than one host drives the command channel, which a model must refuse (R42, U1; log 8). Safe. -/
  | secondHost
deriving DecidableEq, Repr

/-- The block and the agents around it. `rq` and `oq` are the whole architectural state (R17). -/
structure State where
  /-- RQ, oldest entry first (R19) -/
  rq : List Response
  /-- OQ, oldest entry first (R18) -/
  oq : List EncBeat
  /-- the input signals rst, rsp_ready, enc_ready (R21 to R23) -/
  pins : Pins
  /-- how many hosts drive the command channel (R42; the model's own) -/
  hosts : Nat
  /-- the beats the host still has to hand over; the first one is on the channel and stays there until accepted (R20, R23) -/
  offers : List Beat
  /-- the plan: what happens at each following moment (R24; the model's own) -/
  turns : List Turn
  /-- the beats accepted since the last reset, oldest first (R36; the model's own) -/
  accepted : List Beat
  /-- the responses the host received since the last reset (R36; the model's own) -/
  delivered : List Response
  /-- the encoder beats the downstream received since the last reset (R37, R87; the model's own) -/
  sent : List EncBeat
  /-- the encoder beats the downstream received before the last reset (R114; the model's own) -/
  stale : List EncBeat
deriving DecidableEq, Repr

/-- Right after reset, rst released (R29): both queues are empty. The other fields are the model's own or other agents', and their
values are a choice (log 5). -/
def State.reset : State where
  rq := []
  oq := []
  pins := { rst := false, rspReady := true, encReady := true }
  hosts := 1
  offers := []
  turns := []
  accepted := []
  delivered := []
  sent := []
  stale := []

end Sys2Proof.Machine
end

