-- ==== Sys2Proof/Machine/Operands.lean ====
section
/-! DEFINITION. The operand forms: the fields of a Led word (10_state.md R13), the broadcast scalar (40_color_model.md R56),
elementwise application (R55), and the interchange sequences (R15). -/

namespace Sys2Proof.Machine

/-- `L.R = L[31:24]` (R13). -/
def ledR (l : Led) : Channel := l.extractLsb' 24 8

/-- `L.G = L[23:16]` (R13). -/
def ledG (l : Led) : Channel := l.extractLsb' 16 8

/-- `L.B = L[15:8]` (R13). -/
def ledB (l : Led) : Channel := l.extractLsb' 8 8

/-- `L.W = L[7:0]` (R13). -/
def ledW (l : Led) : Channel := l.extractLsb' 0 8

/-- `led(r, g, b, w) = {r, g, b, w}` (R13). -/
def led (r g b w : Channel) : Led := r ++ g ++ b ++ w

/-- `bcast(s) = {s, s, s, s}` (R56). -/
def bcast (s : Channel) : Led := led s s s s

/-- `map4(op, L, M)` (R55): the four lanes are independent, white included. -/
def map4 (op : Channel → Channel → Channel) (l m : Led) : Led :=
  led (op (ledR l) (ledR m)) (op (ledG l) (ledG m)) (op (ledB l) (ledB m)) (op (ledW l) (ledW m))

/-- `ser4(L) = [L.R, L.G, L.B, L.W]` (R15). -/
def ser4 (l : Led) : List Byte := [ledR l, ledG l, ledB l, ledW l]

/-- `ser3(L) = [L.R, L.G, L.B]` (R15). -/
def ser3 (l : Led) : List Byte := [ledR l, ledG l, ledB l]

/-- `led4` and `led3` (R15): the Led that a sequence of 4 or of 3 elements stands for; "3 elements imply white = 0". -/
def ledOfSeq : List Byte → Option Led
  | [r, g, b, w] => some (led r g b w)
  | [r, g, b] => some (led r g b 0)
  | _ => none

end Sys2Proof.Machine
end

