-- ==== Sys2Proof/Machine/Float.lean ====
section
/-! DEFINITION. binary32 as 00_scope.md R10 reads it, rounding to nearest even, and the two conversion functions of 41_conversion.md
(R73, R74), and the assembler's operands (R52). A finite binary32 magnitude is a whole number of units of 2^-149, so every value here is exact (log 10). -/

namespace Sys2Proof.Machine

/-- The sign, bit 31 (R10). -/
def f32Sign (f : F32) : Bool := f.getLsbD 31

/-- The biased exponent, bits 30:23 (R10). -/
def f32Exp (f : F32) : Nat := (f.extractLsb' 23 8).toNat

/-- The fraction, bits 22:0 (R10). -/
def f32Frac (f : F32) : Nat := (f.extractLsb' 0 23).toNat

/-- `isNaN(f)` (R10). -/
def f32IsNaN (f : F32) : Bool := f32Exp f == 255 && f32Frac f != 0

/-- `isInf(f)` (R10). -/
def f32IsInf (f : F32) : Bool := f32Exp f == 255 && f32Frac f == 0

/-- The magnitude of a finite f in units of 2^-149: `|val(f)| = f32Units f / 2^149` (R10). -/
def f32Units (f : F32) : Nat :=
  if f32Exp f = 0 then f32Frac f else (2 ^ 23 + f32Frac f) * 2 ^ (f32Exp f - 1)

/-- The quotient `n / d` rounded to a whole number, ties to even. -/
def roundDiv (n d : Nat) : Nat :=
  let q := n / d
  let r := n % d
  if 2 * r > d ∨ (2 * r = d ∧ q % 2 = 1) then q + 1 else q

/-- How many low bits of a number of units a 24-bit significand cannot hold. -/
def excessBits (units : Nat) : Nat := Nat.log2 units - 23

/-- Bits 30:0 of `RNE32(num / den)` (R10). With `k` excess bits the significand `q` lies in [2^23, 2^24] (below 2^24 if `k = 0`), and exponent
and fraction together are `k * 2^23 + q`, a rounding up to 2^24 carrying into the exponent; from 2^128 on it is infinity. -/
def rneMagnitude (num den : Nat) : Nat :=
  let k := excessBits (num * 2 ^ 149 / den)
  min (k * 2 ^ 23 + roundDiv (num * 2 ^ 149) (den * 2 ^ k)) 0x7F800000

/-- `RNE32` of the real number (±) num / den (R10); the sign of a zero result is the one given. -/
def rne32 (negative : Bool) (num den : Nat) : F32 :=
  .ofNat 32 ((if negative then 2 ^ 31 else 0) + rneMagnitude num den)

/-- `tofloat(c) = RNE32(c / 255)` (R73). -/
def tofloat (c : Channel) : F32 := rne32 false c.toNat 255

/-- `p = RNE32(val(f) * 255)` for an f that is not NaN; an infinity stays one (R74, D7). -/
def f32Times255 (f : F32) : F32 :=
  if f32IsInf f then f else rne32 (f32Sign f) (255 * f32Units f) (2 ^ 149)

/-- The last three lines of R74's pseudocode, on the product p: clamp low, clamp high, truncate. -/
def clampToByte (p : F32) : Channel :=
  if f32Sign p ∨ f32Units p = 0 then 0
  else if f32IsInf p ∨ 255 * 2 ^ 149 ≤ f32Units p then 255
  else .ofNat 8 (f32Units p / 2 ^ 149)

/-- `tobyte(f)` (R74): NaN gives 0, else the product is clamped and truncated. -/
def tobyte (f : F32) : Channel := if f32IsNaN f then 0 else clampToByte (f32Times255 f)

/-- The value of a Led operand of the assembler (R52). -/
def ledOperandValue : LedOperand → Led
  | .word w => w
  | .led r g b w => led r g b w

/-- The value of a float operand of the assembler: `f32(d)`, or the field given bit for bit (R10, R52). -/
def floatOperandValue : FloatOperand → F32
  | .decimal negative num den => rne32 negative num den
  | .bits w => w

/-- The value of a scalar operand of the assembler (R52). -/
def scalarOperandValue : ScalarOperand → Byte
  | .imm s => .ofNat 8 s

end Sys2Proof.Machine
end

