-- ==== Sys2Proof/Machine/Lanes.lean ====
section
/-! DEFINITION. The four lane functions of 40_color_model.md R54: exact on integers, then narrowed by saturation. -/

namespace Sys2Proof.Machine

/-- `sadd(x, y) = min(x + y, 255)` (R54). -/
def sadd (x y : Channel) : Channel := .ofNat 8 (min (x.toNat + y.toNat) 255)

/-- `ssub(x, y) = max(x - y, 0)` on integers (R54): subtraction of naturals stops at 0. -/
def ssub (x y : Channel) : Channel := .ofNat 8 (x.toNat - y.toNat)

/-- `smul(x, y) = min(x * y, 255)`, the integer product (R54, C3). -/
def smul (x y : Channel) : Channel := .ofNat 8 (min (x.toNat * y.toNat) 255)

/-- `sdiv(x, y)`: 0 if y = 0, else `x div y`, truncated (R54, D9). -/
def sdiv (x y : Channel) : Channel := if y = 0#8 then 0#8 else .ofNat 8 (x.toNat / y.toNat)

end Sys2Proof.Machine
end

