-- ==== Sys2Proof/Machine/Ops.lean ====
section
/-! DEFINITION. The operations on the queues that every step is made of: pushing what a command answers (R25, R11), the one
exception ILL (60_exceptions.md R98, R99), the deliveries (R26, R27), reset (R113), and taking the beat that the host offers. -/

namespace Sys2Proof.Machine

/-- `n ≤ m`, by recursion on `n`, so that it evaluates for small `n` although `m` is a constant without a value. -/
def fits : Nat → Nat → Bool
  | 0, _ => true
  | _ + 1, 0 => false
  | n + 1, m + 1 => fits n m

/-- `len(RQ) < RQ_DEPTH` (R25), which is `len(RQ) ≤ RQ_DEPTH - 1`. -/
def rqHasRoom (s : State) : Bool := fits s.rq.length Config.rqSpare

/-- `len(OQ) + 32 ≤ OQ_DEPTH` (R25), which is `len(OQ) ≤ OQ_DEPTH - 32`. -/
def oqHasRoom (s : State) : Bool := fits s.oq.length Config.oqSpare

/-- Why a command is not admitted now, if it is not; `encoder` says whether it is ENC or ENCL (R25, R112, R118). -/
def blockedBy (encoder : Bool) (s : State) : Option Fault :=
  if s.pins.rst then some .inReset
  else if !rqHasRoom s then some .rqFull
  else if encoder && !oqHasRoom s then some .oqFull
  else none

/-- One response entry and the command's encoder beats enter the queues (R25). -/
def State.push (s : State) (r : Response) (bs : List EncBeat) : State :=
  { s with rq := s.rq ++ [r], oq := s.oq ++ bs }

/-- The effect of an accepted command, all in one step (R25, R34), or no step while it is not admitted (R118). -/
def commit (encoder : Bool) (r : Response) (bs : List EncBeat) (s : State) : Host.Outcome State Fault Refusal :=
  match blockedBy encoder s with
  | some f => .fault f
  | none => .next (s.push r bs)

/-- `respond(st, res, fo0, fo1, fo2)` by a command that emits nothing and needs no space in OQ (R11, R25). -/
def respond (r : Response) (s : State) : Host.Outcome State Fault Refusal := commit false r [] s

/-- The `emit`s of an encoder command and its response, in one atomic step (R25, R34, R85). -/
def emitAndRespond (bs : List EncBeat) (r : Response) (s : State) : Host.Outcome State Fault Refusal := commit true r bs s

/-- The OK response with a Led result (R45). -/
def okLed (l : Led) : Response := ⟨.ok, l, 0, 0, 0⟩

/-- The OK response in which every result field is zero (R45). -/
def okZero : Response := ⟨.ok, 0, 0, 0, 0⟩

/-- The OK response with three binary32 results (R45, R76). -/
def okFloats (x y z : F32) : Response := ⟨.ok, 0, x, y, z⟩

/-- The ILL response `(0b01, 0, 0, 0, 0)` (R99). -/
def illResponse : Response := ⟨.ill, 0, 0, 0, 0⟩

/-- Taking the one exception, ILL (R98, R99): its response enters RQ, nothing is emitted, no space in OQ is needed, and there is nothing
to return from (R103, R104). -/
def raiseIll (s : State) : Host.Outcome State Fault Refusal := respond illResponse s

/-- The beat at the head of the host's offers leaves the channel and is the latest one accepted (R20, R25). -/
def State.fetched (s : State) (b : Beat) (rest : List Beat) : State :=
  { s with offers := rest, accepted := s.accepted ++ [b] }

/-- The next moment of the plan is used up. -/
def State.nextTurn (s : State) (rest : List Turn) : State := { s with turns := rest }

/-- The head entry `r` of RQ goes to the host (R26). -/
def State.popResponse (s : State) (r : Response) (rest : List Response) : State :=
  { s with rq := rest, delivered := s.delivered ++ [r] }

/-- Step `Respond` (R26): enabled when RQ is not empty, the host is ready and the block is not in reset. -/
def deliverResponse (s : State) : Host.Outcome State Fault Refusal :=
  if s.pins.rst then .fault .inReset
  else if !s.pins.rspReady then .fault .hostNotReady
  else match s.rq with
    | [] => .fault .rqEmpty
    | r :: rest => .next (s.popResponse r rest)

/-- The head entry `e` of OQ goes to the downstream (R27). -/
def State.popByte (s : State) (e : EncBeat) (rest : List EncBeat) : State :=
  { s with oq := rest, sent := s.sent ++ [e] }

/-- Step `Emit` (R27): enabled when OQ is not empty, the downstream is ready and the block is not in reset. -/
def deliverByte (s : State) : Host.Outcome State Fault Refusal :=
  if s.pins.rst then .fault .inReset
  else if !s.pins.encReady then .fault .downstreamNotReady
  else match s.oq with
    | [] => .fault .oqEmpty
    | e :: rest => .next (s.popByte e rest)

/-- Both queues empty, their entries discarded (R113). A new history begins, and what the downstream already holds stays
with it (R114). -/
def State.cleared (s : State) : State :=
  { s with rq := [], oq := [], accepted := [], delivered := [], sent := [], stale := s.stale ++ s.sent }

/-- A reset edge (R112, R113): it happens only while rst = 1. The beat on the command channel is not accepted: it stays offered. -/
def resetBlock (s : State) : Host.Outcome State Fault Refusal :=
  if s.pins.rst then .next s.cleared else .fault .notInReset

/-- The host has taken every response and the downstream every byte, by as many Respond and Emit as there are entries (R26, R27; log 6). -/
def State.drained (s : State) : State :=
  { s with rq := [], oq := [], delivered := s.delivered ++ s.rq, sent := s.sent ++ s.oq }

/-- The other agents drive the pins anew (R23, R112; log 1). -/
def State.driven (s : State) (p : Pins) : State := { s with pins := p }

/-- No step of the block: only the pins change (R21, R22, R112; log 1). -/
def drivePins (p : Pins) (s : State) : Host.Outcome State Fault Refusal := .next (s.driven p)

end Sys2Proof.Machine
end

