-- ==== Sys2Proof/Machine/ArithFloat.lean ====
section
/-! DEFINITION. Arithmetic with a float factor: converted to a scalar first, then the integer rule (40_color_model.md R71 and section 5). -/

namespace Sys2Proof.Machine

/-- ADD.F (R67). -/
def execAddF (a : Led) (f : F32) (s : State) : Host.Outcome State Fault Refusal :=
  respond (okLed (map4 sadd a (bcast (tobyte f)))) s

/-- SUB.F (R68). -/
def execSubF (a : Led) (f : F32) (s : State) : Host.Outcome State Fault Refusal :=
  respond (okLed (map4 ssub a (bcast (tobyte f)))) s

/-- MUL.F (R69). -/
def execMulF (a : Led) (f : F32) (s : State) : Host.Outcome State Fault Refusal :=
  respond (okLed (map4 smul a (bcast (tobyte f)))) s

/-- DIV.F (R70). -/
def execDivF (a : Led) (f : F32) (s : State) : Host.Outcome State Fault Refusal :=
  respond (okLed (map4 sdiv a (bcast (tobyte f)))) s

end Sys2Proof.Machine
end

