-- ==== Sys2Proof/Machine/ArithLed.lean ====
section
/-! DEFINITION. Arithmetic with a Led (40_color_model.md section 3). -/

namespace Sys2Proof.Machine

/-- ADD.L (R59). -/
def execAddL (a b : Led) (s : State) : Host.Outcome State Fault Refusal := respond (okLed (map4 sadd a b)) s

/-- SUB.L (R60): A minus B. -/
def execSubL (a b : Led) (s : State) : Host.Outcome State Fault Refusal := respond (okLed (map4 ssub a b)) s

/-- MUL.L (R61). -/
def execMulL (a b : Led) (s : State) : Host.Outcome State Fault Refusal := respond (okLed (map4 smul a b)) s

/-- DIV.L (R62): A by B. -/
def execDivL (a b : Led) (s : State) : Host.Outcome State Fault Refusal := respond (okLed (map4 sdiv a b)) s

end Sys2Proof.Machine
end

