-- ==== Sys2Proof/Machine/ArithScalar.lean ====
section
/-! DEFINITION. Arithmetic with an 8-bit scalar, broadcast to all four channels (40_color_model.md R56 and section 4). -/

namespace Sys2Proof.Machine

/-- ADD.S (R63). -/
def execAddS (a : Led) (k : Byte) (s : State) : Host.Outcome State Fault Refusal :=
  respond (okLed (map4 sadd a (bcast k))) s

/-- SUB.S (R64). -/
def execSubS (a : Led) (k : Byte) (s : State) : Host.Outcome State Fault Refusal :=
  respond (okLed (map4 ssub a (bcast k))) s

/-- MUL.S (R65). -/
def execMulS (a : Led) (k : Byte) (s : State) : Host.Outcome State Fault Refusal :=
  respond (okLed (map4 smul a (bcast k))) s

/-- DIV.S (R66). -/
def execDivS (a : Led) (k : Byte) (s : State) : Host.Outcome State Fault Refusal :=
  respond (okLed (map4 sdiv a (bcast k))) s

end Sys2Proof.Machine
end

