-- ==== Sys2Proof/Machine/Construct.lean ====
section
/-! DEFINITION. The construction commands (40_color_model.md section 2). -/

namespace Sys2Proof.Machine

/-- LDL (R57): the Led A. -/
def execLdl (a : Led) (s : State) : Host.Outcome State Fault Refusal := respond (okLed a) s

/-- LDL3 (R58): the Led A with white 0; `A.W` is not read. -/
def execLdl3 (a : Led) (s : State) : Host.Outcome State Fault Refusal :=
  respond (okLed (led (ledR a) (ledG a) (ledB a) 0)) s

end Sys2Proof.Machine
end

