-- ==== Sys2Proof/Machine/Convert.lean ====
section
/-! DEFINITION. The conversion commands (41_conversion.md section 2). -/

namespace Sys2Proof.Machine

/-- CVT.L2F (R76): the red, green and blue channels as floats; white is not read. -/
def execCvtL2F (a : Led) (s : State) : Host.Outcome State Fault Refusal :=
  respond (okFloats (tofloat (ledR a)) (tofloat (ledG a)) (tofloat (ledB a))) s

/-- CVT.F2L (R77): three floats to a Led with white 0. -/
def execCvtF2L (f0 f1 f2 : F32) (s : State) : Host.Outcome State Fault Refusal :=
  respond (okLed (led (tobyte f0) (tobyte f1) (tobyte f2) 0)) s

/-- CVT.F2S (R78): the broadcast scalar of a factor. -/
def execCvtF2S (f : F32) (s : State) : Host.Outcome State Fault Refusal := respond (okLed (bcast (tobyte f))) s

end Sys2Proof.Machine
end

