-- ==== Sys2Proof/Machine/Encoder.lean ====
section
/-! DEFINITION. The bit encoder (42_bit_encoder.md sections 1 and 2). -/

namespace Sys2Proof.Machine

/-- `sym(1) = 0xF0`, `sym(0) = 0xC0` (R81). -/
def sym (bit : Bool) : Byte := if bit then 0xF0#8 else 0xC0#8

/-- `wire(L) = {L.G, L.R, L.B, L.W}` (R82). -/
def wire (l : Led) : Word := ledG l ++ ledR l ++ ledB l ++ ledW l

/-- `enc(L)` (R84): byte i is the symbol of bit 31 - i of the wire word, most significant bit first (R83). -/
def encBytes (l : Led) : List Byte := (List.range 32).map fun i => sym ((wire l).getLsbD (31 - i))

/-- The beats of `ENC` (R85): last = 0 on each. -/
def encBeats (l : Led) : List EncBeat := (encBytes l).map fun d => ⟨d, false⟩

/-- The beats of `ENCL` (R86): last = 1 on byte 31 alone. -/
def enclBeats (l : Led) : List EncBeat := (encBytes l).mapIdx fun i d => ⟨d, i == 31⟩

/-- ENC (R85). -/
def execEnc (a : Led) (s : State) : Host.Outcome State Fault Refusal := emitAndRespond (encBeats a) okZero s

/-- ENCL (R86). -/
def execEncl (a : Led) (s : State) : Host.Outcome State Fault Refusal := emitAndRespond (enclBeats a) okZero s

end Sys2Proof.Machine
end

