-- ==== Sys2Proof/Machine/System.lean ====
section
/-! DEFINITION. The system command, NOP (43_system.md). -/

namespace Sys2Proof.Machine

/-- NOP (R97): an OK response, nothing else. -/
def execNop (s : State) : Host.Outcome State Fault Refusal := respond okZero s

end Sys2Proof.Machine
end

