-- ==== Sys2Proof/Machine/Dispatch.lean ====
section
/-! DEFINITION. One arm for each command of the opcode map (30_encoding.md R46). -/

namespace Sys2Proof.Machine

def exec (i : Instr) (s : State) : Host.Outcome State Fault Refusal :=
  match i with
  | .nop => Sys2Proof.Machine.execNop s
  | .ldl a => Sys2Proof.Machine.execLdl a s
  | .ldl3 a => Sys2Proof.Machine.execLdl3 a s
  | .addL a b => Sys2Proof.Machine.execAddL a b s
  | .subL a b => Sys2Proof.Machine.execSubL a b s
  | .mulL a b => Sys2Proof.Machine.execMulL a b s
  | .divL a b => Sys2Proof.Machine.execDivL a b s
  | .addS a k => Sys2Proof.Machine.execAddS a k s
  | .subS a k => Sys2Proof.Machine.execSubS a k s
  | .mulS a k => Sys2Proof.Machine.execMulS a k s
  | .divS a k => Sys2Proof.Machine.execDivS a k s
  | .addF a f => Sys2Proof.Machine.execAddF a f s
  | .subF a f => Sys2Proof.Machine.execSubF a f s
  | .mulF a f => Sys2Proof.Machine.execMulF a f s
  | .divF a f => Sys2Proof.Machine.execDivF a f s
  | .cvtL2F a => Sys2Proof.Machine.execCvtL2F a s
  | .cvtF2L f0 f1 f2 => Sys2Proof.Machine.execCvtF2L f0 f1 f2 s
  | .cvtF2S f => Sys2Proof.Machine.execCvtF2S f s
  | .enc a => Sys2Proof.Machine.execEnc a s
  | .encl a => Sys2Proof.Machine.execEncl a s

end Sys2Proof.Machine
end

