-- ==== Sys2Proof/Machine/Accept.lean ====
section
/-! DEFINITION. Accepting a beat (10_state.md R25) and what one turn of the plan does (R24). -/

namespace Sys2Proof.Machine

/-- The effect of accepting a beat (R25): the decoded command's execute rule, or the exception ILL (R98). -/
def acceptBeat (b : Beat) (s : State) : Host.Outcome State Fault Refusal :=
  match decode b with
  | .legal i => exec i s
  | .ill _ => raiseIll s

/-- Step `Accept` (R25): the beat on the command channel is taken and has its effect; while it is not admitted, there is no step and it
stays on the channel (R118). -/
def acceptOffer (s : State) : Host.Outcome State Fault Refusal :=
  match s.offers with
  | [] => .fault .noOffer
  | b :: rest => acceptBeat b (s.fetched b rest)

/-- What one turn of the plan does (R24). -/
def takeTurn (t : Turn) (s : State) : Host.Outcome State Fault Refusal :=
  match t with
  | .accept => acceptOffer s
  | .respond => deliverResponse s
  | .emit => deliverByte s
  | .reset => resetBlock s
  | .drive p => drivePins p s

/-- The run is at its end (R122): the host offers no further command, and RQ and OQ are both empty. -/
def runIsOver (s : State) : Bool := s.offers.isEmpty && s.rq.isEmpty && s.oq.isEmpty

/-- One moment: more than one host is not admitted (R42); else the next turn of the plan is taken, and at the plan's end the stop says whether the
run is at its end too (R122; log 2). -/
def stepTurn (s : State) : Host.Outcome State Fault Refusal :=
  if 1 < s.hosts then .refused .secondHost
  else match s.turns with
    | [] => if runIsOver s then .fault .runEnded else .fault .noTurn
    | t :: rest => takeTurn t (s.nextTurn rest)

/-- The host offers the beat next, alone on the channel, and Accept has the next turn, outside reset and with nothing waiting in the queues, so that
R25 admits the beat whatever the depths (log 6). -/
def State.offering (s : State) (b : Beat) : State :=
  { s.drained with
    pins := { s.pins with rst := false }, hosts := 1
    offers := b :: s.offers, turns := .accept :: s.turns }

end Sys2Proof.Machine
end

