-- ==== Sys2Proof/Machine/Step.lean ====
section
/-! DEFINITION. One step of the machine, and the placing of a command word where the next step takes it. -/

namespace Sys2Proof.Machine

/-- One step (10_state.md R24). -/
def step (s : State) : Host.Outcome State Fault Refusal := stepTurn s

/-- The state in which the host offers the table row's word, its operand fields 0, and the next step accepts it (log 6). -/
def State.withFetchWord (s : State) (nbits w : Nat) : State := s.offering (tableBeat nbits w)

end Sys2Proof.Machine
end

