-- ==== Sys2Proof/Machine/Flags.lean ====
section
/-! DEFINITION. The block has no status or condition flags (10_state.md R30; 60_exceptions.md R100, R101), so there is no flag to compute. All it reports
of a command is the status code of its response (R21, R98). -/

namespace Sys2Proof.Machine

/-- The code on `rsp_st` (R21, R98). -/
def statusCode : Status → BitVec 2
  | .ok => 0b00#2
  | .ill => 0b01#2

end Sys2Proof.Machine
end

