-- ==== Sys2Proof/Machine/Ports.lean ====
section
/-! DEFINITION. The output signals of the three channels as functions of the state (10_state.md R20 to R22, section 6). A payload has no
value while its valid is 0 (U10). -/

namespace Sys2Proof.Machine

/-- `decode(beat.cmd)` is ENC or ENCL (R25). -/
def isEncoder (b : Beat) : Bool :=
  match decode b with
  | .legal (.enc _) => true
  | .legal (.encl _) => true
  | _ => false

/-- `cmd_valid`: the host offers a beat (R20); in reset it may too (R113). -/
def cmdValid (s : State) : Bool := !s.offers.isEmpty

/-- `cmd_ready` (R25, R29, R112): nothing keeps the beat on the channel from being accepted. While NO beat is offered the spec gives it after reset alone (R29);
that it is then 1 whenever rst = 0 and RQ has room, however full OQ is, is the model's, DESIGN CHOICE (log 19). -/
def cmdReady (s : State) : Bool :=
  match s.offers with
  | [] => (blockedBy false s).isNone
  | b :: _ => (blockedBy (isEncoder b) s).isNone

/-- `rsp_valid` (R21, R29, R112). -/
def rspValid (s : State) : Bool := !s.pins.rst && !s.rq.isEmpty

/-- `rsp_st, rsp_res, rsp_fo0, rsp_fo1, rsp_fo2`: the head entry of RQ, while `rsp_valid = 1` (R21). -/
def rspPayload (s : State) : Option (BitVec 2 × Word × Word × Word × Word) :=
  if rspValid s then s.rq.head?.map fun r => (statusCode r.st, r.res, r.fo0, r.fo1, r.fo2) else none

/-- `enc_valid` (R22, R29, R112). -/
def encValid (s : State) : Bool := !s.pins.rst && !s.oq.isEmpty

/-- `enc_data, enc_last`: the head entry of OQ, while `enc_valid = 1` (R22). -/
def encPayload (s : State) : Option (Byte × Bool) :=
  if encValid s then s.oq.head?.map fun e => (e.data, e.last) else none

end Sys2Proof.Machine
end

