-- ==== Sys2Proof/Machine/Waveform.lean ====
section
/-! DEFINITION. Frames (42_bit_encoder.md R87) and the data line that a conforming downstream makes of them (R90 to R95). The downstream
is outside the block (00_scope.md R4): no step of the machine is here, only what its duties say a line is. A line is a list of
levels, one for each bit-clock period, high being true. -/

namespace Sys2Proof.Machine

/-- The complete frames of a stream of encoder beats, and the beats after the last complete one (R87). -/
def splitFrames : List EncBeat → List (List EncBeat) × List EncBeat
  | [] => ([], [])
  | e :: rest =>
    let (frames, tail) := splitFrames rest
    if e.last then ([e] :: frames, tail)
    else match frames with
      | [] => ([], e :: tail)
      | f :: more => ((e :: f) :: more, tail)

/-- An encoder byte on the line: most significant bit first, one bit-clock period a bit (R90). -/
def symbolLevels (d : Byte) : List Bool := (List.range 8).map fun i => d.getLsbD (7 - i)

/-- A frame on the line: its bytes back to back (R93). -/
def frameLevels (f : List EncBeat) : List Bool := f.flatMap fun e => symbolLevels e.data

/-- A line: before each frame a number of low periods, and after the last one a low tail (R94, R95). -/
def lineLevels : List (Nat × List EncBeat) → Nat → List Bool
  | [], tail => List.replicate tail false
  | (gap, f) :: rest, tail => List.replicate gap false ++ frameLevels f ++ lineLevels rest tail

/-- The least number of whole bit-clock periods that last `tLatch` seconds at `fBit` Hz (R91, R94). Whole periods, rounded up: log 12. Rational
arguments: log 18. -/
def latchPeriods (fBit tLatch : ℚ) : Nat := ⌈tLatch * fBit⌉₊

end Sys2Proof.Machine
end

