-- ==== Sys2Proof/Safety.lean ====
section
/-! DEFINITION. The terms in which the claims speak: when a command is admitted, the channels and wire bits of a Led as numbers, malformed words,
binary32 values as rationals, rounding, what a beat alone makes the block put out, and the queue invariant. -/

namespace Sys2Proof.Machine

/-- The state after a step, if there is a step. -/
def nextOf : Host.Outcome State Fault Refusal → Option State
  | .next t => some t
  | .fault _ => none
  | .refused _ => none

/-- RQ takes a command: `rst = 0` and `len(RQ) < RQ_DEPTH` (R25). -/
def Open (s : State) : Prop := s.pins.rst = false ∧ s.rq.length < Config.rqDepth

/-- OQ takes an encoder command: `len(OQ) + 32 ≤ OQ_DEPTH` (R25). -/
def OqOpen (s : State) : Prop := s.oq.length + 32 ≤ Config.oqDepth

/-- Channel k of a Led as a number, 0 = R, 1 = G, 2 = B, 3 = W (R13). -/
def chan (l : Led) (k : Nat) : Nat := l.toNat / 2 ^ (8 * (3 - k)) % 256

/-- The channel that is sent in place i div 8 of the wire order G, R, B, W (R82, R84). -/
def wireChannel : Nat → Nat
  | 0 => 1
  | 1 => 0
  | k => k

/-- Byte i of `enc(L)`: bit `7 - (i mod 8)` of channel `i div 8` in wire order, `0xF0` for 1 and `0xC0` for 0 (R81, R84). -/
def wireByte (l : Led) (i : Nat) : Byte :=
  if (chan l (wireChannel (i / 8))).testBit (7 - i % 8) then 0xF0#8 else 0xC0#8

/-- The OPC values that R48 lists as reserved. -/
abbrev ReservedOpc (n : Nat) : Prop :=
  (0x03 ≤ n ∧ n ≤ 0x0F) ∨ (0x14 ≤ n ∧ n ≤ 0x1F) ∨ (0x24 ≤ n ∧ n ≤ 0x2F) ∨ (0x34 ≤ n ∧ n ≤ 0x3F)
    ∨ (0x43 ≤ n ∧ n ≤ 0x4F) ∨ (0x52 ≤ n ∧ n ≤ 0xFF)

/-- A malformed command word: `cmd[31:16] ≠ 0` (R49), a reserved OPC (R48), or `cmd[15:8] ≠ 0` on a command other than the four `.S` ones (R50). -/
abbrev Malformed (c : Word) : Prop :=
  c.toNat / 65536 ≠ 0 ∨ ReservedOpc (c.toNat % 256)
    ∨ (¬ (0x20 ≤ c.toNat % 256 ∧ c.toNat % 256 ≤ 0x23) ∧ c.toNat / 256 % 256 ≠ 0)

/-- A finite binary32 value (R10). -/
def F32Finite (f : F32) : Prop := f32Exp f ≠ 255

/-- `val(f)` of a finite f (R10). -/
def f32Value (f : F32) : ℚ := (if f32Sign f then -1 else 1) * (f32Units f : ℚ) / 2 ^ 149

/-- `w` is `RNE32(x)` (R10): at and beyond 2^128 - 2^103 an infinity, and below it a nearest binary32 value, even where another
one is as near. The sign of a zero is not fixed. -/
def RoundsTo (x : ℚ) (w : F32) : Prop :=
  if 2 ^ 128 - 2 ^ 103 ≤ |x| then f32IsInf w = true ∧ (f32Sign w = true ↔ x < 0)
  else F32Finite w ∧ ∀ v : F32, F32Finite v →
    |f32Value w - x| ≤ |f32Value v - x| ∧
      (|f32Value w - x| = |f32Value v - x| → f32Value v ≠ f32Value w → w.getLsbD 0 = false)

/-- How long a number of bit-clock periods lasts at `fBit` Hz, in seconds (R92; a rational clock: log 18). -/
def seconds (fBit : ℚ) (periods : Nat) : ℚ := (periods : ℚ) / fBit

/-- A line that meets the downstream's duties for these frames: each frame gapless, in order, most significant bit first, and before each frame low for
at least `T_LATCH` (R90, R93 to R95; before the first one R115). Gaps are whole bit-clock periods, rounded up: log 12. -/
def ConformingLine (fBit tLatch : ℚ) (frames : List (List EncBeat)) (levels : List Bool) : Prop :=
  ∃ segments tail, segments.map Prod.snd = frames ∧ (∀ p ∈ segments, latchPeriods fBit tLatch ≤ p.1)
    ∧ levels = lineLevels segments tail

/-- The end of a run (R122): the host offers no further command, and RQ and OQ are both empty. -/
def EndOfRun (s : State) : Prop := s.offers = [] ∧ s.rq = [] ∧ s.oq = []

/-- The turn takes the machine from `s` to `t`, whatever the plan (R24): one host at most drives the channel, since a configuration with a second one is refused
(R42), and the turn takes its step. It is what `step` does with the turn next in the plan (`takes_iff_step` in Laws/Exec.lean). -/
def Takes (turn : Turn) (s t : State) : Prop := s.hosts ≤ 1 ∧ takeTurn turn s = .next t

/-- An endless run: at each moment one turn is taken, and it takes a step (R24), so that no state of it has a second host (R42). A moment at which nothing happens is
a turn that drives the pins to what they are. A finite part of such a run is a run of `step` whose plan is its turns (Laws/Runs.lean). -/
def IsRun (states : Nat → State) (turns : Nat → Turn) : Prop :=
  ∀ n, Takes (turns n) (states n) (states (n + 1))

/-- Weak fairness of one kind of step along an endless run (R122): if it is enabled at every moment from some moment on, then it is taken at that moment or
later. -/
def WeaklyFair (turn : Turn) (states : Nat → State) (turns : Nat → Turn) : Prop :=
  ∀ n, (∀ m, n ≤ m → ∃ t, Takes turn (states m) t) → ∃ m, n ≤ m ∧ turns m = turn

/-- What accepting this beat alone, right after reset, puts into RQ and OQ (R28). -/
def outputsOf (b : Beat) : List Response × List EncBeat :=
  match acceptBeat b State.reset with
  | .next t => (t.rq, t.oq)
  | .fault _ => ([], [])
  | .refused _ => ([], [])

/-- The queue invariant: neither queue is over its capacity (R18, R19), the responses received and waiting are those of the accepted beats in order
(R36), and the bytes received and waiting are those of the accepted beats in order (R37, R38). -/
structure QueueInv (s : State) : Prop where
  rqBound : s.rq.length ≤ Config.rqDepth
  oqBound : s.oq.length ≤ Config.oqDepth
  responses : s.delivered ++ s.rq = s.accepted.flatMap fun b => (outputsOf b).1
  bytes : s.sent ++ s.oq = s.accepted.flatMap fun b => (outputsOf b).2

end Sys2Proof.Machine
end

