-- ==== Sys2Proof/Certificates/Slice0/Obligations.lean ====
section
/-! DEFINITION. The statements for the provers, in the terms of Safety.lean. Each docstring names the rules it comes from. -/

open Sys2Proof Sys2Proof.Machine

/-! ### Encoding and decoding -/

/-- Decoding what the assembler makes of a command gives the command back, with every operand at every value
(R43, R46, R47, R52). -/
def Obligations.DecodeOfEncodeIsTheInstruction : Prop :=
  ∀ i : Instr, decode (encode i) = .legal i

/-- The assembler's beat of a command is well formed and has every unread field zero, and it is the only such beat that
decodes to the command (R45, R47, R52). -/
def Obligations.EncodeIsTheCanonicalBeat : Prop :=
  ∀ (i : Instr) (b : Beat), decode b = .legal i → ((encode i).canonical = true ∧ (b.canonical = true → b = encode i))

/-- R47: a word selects a command exactly when `(c & mask) = match` for its row of the opcode table, and it is ILL exactly when no row
matches. -/
def Obligations.DecodeFollowsMaskAndMatch : Prop :=
  ∀ b : Beat,
    (∀ r ∈ tableRows, (∃ i, decode b = .legal i ∧ i.mnemonic = r.mnemonic) ↔ b.cmd &&& r.mask = r.word) ∧
    ((∃ why, decode b = .ill why) ↔ ∀ r ∈ tableRows, b.cmd &&& r.mask ≠ r.word)

/-- R48, R49, R50: a malformed command word is illegal, whatever the operands; it is accepted whenever RQ has room, and answered with the
ILL response and no other effect. -/
def Obligations.MalformedWordIsAnsweredIll : Prop :=
  ∀ (b : Beat) (s : State), Malformed b.cmd → Open s →
    (∃ why, decode b = .ill why) ∧
    acceptBeat b s = .next { s with rq := s.rq ++ [⟨.ill, 0, 0, 0, 0⟩] }

/-- R98: an accepted beat is answered `rsp_st = 0b01`, with no address and no command bits, exactly when its command word is malformed, and `0b00` otherwise, so no
operand value raises ILL and the codes `0b10` and `0b11` are never produced. -/
def Obligations.IllExactlyForMalformedWords : Prop :=
  ∀ (b : Beat) (s t : State), acceptBeat b s = .next t →
    ∃ r, t.rq = s.rq ++ [r] ∧
      (Malformed b.cmd → statusCode r.st = 0b01#2 ∧ r.res = 0 ∧ r.fo0 = 0 ∧ r.fo1 = 0 ∧ r.fo2 = 0) ∧
      (¬ Malformed b.cmd → statusCode r.st = 0b00#2)

/-- R45: two beats with the same command word that agree on the fields the command reads have the same effect in every state: an unread
field has none. -/
def Obligations.UnreadFieldsHaveNoEffect : Prop :=
  ∀ (b c : Beat) (s : State), b.cmd = c.cmd →
    (b.opcIn opcsReadingA = true → b.a = c.a) → (b.opcIn opcsReadingB = true → b.b = c.b) →
    (b.opcIn opcsReadingF0 = true → b.f0 = c.f0) →
    (b.opcIn opcsReadingF12 = true → b.f1 = c.f1 ∧ b.f2 = c.f2) →
    acceptBeat b s = acceptBeat c s

/-- Words written out from R46 and from 95_test_vectors.md section 2.8 decode to the commands they stand for. -/
def Obligations.SampleWordsDecode : Prop :=
  decode ⟨0x00000000, 1, 2, 3, 4, 5⟩ = .legal .nop ∧
  decode ⟨0x00000002, 1, 2, 3, 4, 5⟩ = .legal (.ldl3 1) ∧
  decode ⟨0x00000013, 1, 2, 3, 4, 5⟩ = .legal (.divL 1 2) ∧
  decode ⟨0x00001923, 1, 2, 3, 4, 5⟩ = .legal (.divS 1 25) ∧
  decode ⟨0x00000033, 1, 2, 3, 4, 5⟩ = .legal (.divF 1 3) ∧
  decode ⟨0x00000041, 1, 2, 3, 4, 5⟩ = .legal (.cvtF2L 3 4 5) ∧
  decode ⟨0x00000051, 1, 2, 3, 4, 5⟩ = .legal (.encl 1) ∧
  decode ⟨0x00000150, 1, 2, 3, 4, 5⟩ = .ill .imm8Nonzero ∧
  decode ⟨0x0001FF22, 1, 2, 3, 4, 5⟩ = .ill .rsvdNonzero ∧
  decode ⟨0x00000043, 1, 2, 3, 4, 5⟩ = .ill .reservedOpc

/-- A step whose turn is Accept runs the command that the offered beat decodes to, or the exception ILL, on the state in which the turn is used
up and the beat has left the channel (R24, R25, R98; the plan and the history are the model's, log 1 and log 9). -/
def Obligations.StepRunsTheDecodedInstruction : Prop :=
  ∀ (s : State) (ts : List Turn) (b : Beat) (bs : List Beat),
    s.hosts ≤ 1 → s.turns = .accept :: ts → s.offers = b :: bs →
    (∀ i, decode b = .legal i →
      step s = exec i { s with turns := ts, offers := bs, accepted := s.accepted ++ [b] }) ∧
    (∀ why, decode b = .ill why →
      step s = raiseIll { s with turns := ts, offers := bs, accepted := s.accepted ++ [b] })

/-! ### What each command answers, and that it changes nothing else

Each statement says: the word of the spec's encoding decodes to the command with the fields the spec names as operands; executing it completes in every
state in which R25 admits it; the next state is the old one with one response at the end of RQ (and, for ENC and ENCL, 32 entries at the end of OQ). -/

/-- R97: NOP answers OK with zeros and emits nothing; it needs room in RQ alone; any other word with OPC 0x00 is ILL. -/
def Obligations.NopAnswersOk : Prop :=
  (∀ (b : Beat) (s : State), b.cmd = 0x00000000#32 → Open s →
    decode b = .legal .nop ∧ exec .nop s = .next { s with rq := s.rq ++ [⟨.ok, 0, 0, 0, 0⟩] }) ∧
  (∀ b : Beat, b.cmd.toNat % 256 = 0 → b.cmd ≠ 0 → ∃ why, decode b = .ill why)

/-- R57: LDL answers the Led A, each channel as given. -/
def Obligations.LdlAnswersTheLed : Prop :=
  ∀ (b : Beat) (s : State), b.cmd = 0x00000001#32 → Open s →
    decode b = .legal (.ldl b.a) ∧ exec (.ldl b.a) s = .next { s with rq := s.rq ++ [⟨.ok, b.a, 0, 0, 0⟩] }

/-- R58: LDL3 answers A with white 0. -/
def Obligations.Ldl3ClearsWhite : Prop :=
  ∀ (b : Beat) (s : State), b.cmd = 0x00000002#32 → Open s →
    decode b = .legal (.ldl3 b.a) ∧
    ∃ r : Led, exec (.ldl3 b.a) s = .next { s with rq := s.rq ++ [⟨.ok, r, 0, 0, 0⟩] } ∧
      chan r 3 = 0 ∧ ∀ k < 3, chan r k = chan b.a k

/-- R59: ADD.L adds channel by channel and saturates at 255. -/
def Obligations.AddLedSaturates : Prop :=
  ∀ (b : Beat) (s : State), b.cmd = 0x00000010#32 → Open s →
    decode b = .legal (.addL b.a b.b) ∧
    ∃ r : Led, exec (.addL b.a b.b) s = .next { s with rq := s.rq ++ [⟨.ok, r, 0, 0, 0⟩] } ∧
      ∀ k < 4, chan r k = min (chan b.a k + chan b.b k) 255

/-- R60: SUB.L subtracts B from A channel by channel and saturates at 0. -/
def Obligations.SubLedSaturates : Prop :=
  ∀ (b : Beat) (s : State), b.cmd = 0x00000011#32 → Open s →
    decode b = .legal (.subL b.a b.b) ∧
    ∃ r : Led, exec (.subL b.a b.b) s = .next { s with rq := s.rq ++ [⟨.ok, r, 0, 0, 0⟩] } ∧
      ∀ k < 4, (chan r k : ℤ) = max ((chan b.a k : ℤ) - (chan b.b k : ℤ)) 0

/-- R61: MUL.L is the integer product channel by channel, saturated at 255. -/
def Obligations.MulLedSaturates : Prop :=
  ∀ (b : Beat) (s : State), b.cmd = 0x00000012#32 → Open s →
    decode b = .legal (.mulL b.a b.b) ∧
    ∃ r : Led, exec (.mulL b.a b.b) s = .next { s with rq := s.rq ++ [⟨.ok, r, 0, 0, 0⟩] } ∧
      ∀ k < 4, chan r k = min (chan b.a k * chan b.b k) 255

/-- R62: DIV.L is the truncated quotient A by B channel by channel, and 0 in a lane whose divisor is 0. -/
def Obligations.DivLedTruncatesAndZeroes : Prop :=
  ∀ (b : Beat) (s : State), b.cmd = 0x00000013#32 → Open s →
    decode b = .legal (.divL b.a b.b) ∧
    ∃ r : Led, exec (.divL b.a b.b) s = .next { s with rq := s.rq ++ [⟨.ok, r, 0, 0, 0⟩] } ∧
      ∀ k < 4, chan r k = if chan b.b k = 0 then 0 else chan b.a k / chan b.b k

/-- R63: ADD.S adds the scalar `cmd[15:8]` to every channel and saturates at 255. -/
def Obligations.AddScalarSaturates : Prop :=
  ∀ (b : Beat) (k : Byte) (s : State), b.cmd.toNat = 0x20 + 256 * k.toNat → Open s →
    decode b = .legal (.addS b.a k) ∧
    ∃ r : Led, exec (.addS b.a k) s = .next { s with rq := s.rq ++ [⟨.ok, r, 0, 0, 0⟩] } ∧
      ∀ j < 4, chan r j = min (chan b.a j + k.toNat) 255

/-- R64: SUB.S subtracts the scalar `cmd[15:8]` from every channel and saturates at 0. -/
def Obligations.SubScalarSaturates : Prop :=
  ∀ (b : Beat) (k : Byte) (s : State), b.cmd.toNat = 0x21 + 256 * k.toNat → Open s →
    decode b = .legal (.subS b.a k) ∧
    ∃ r : Led, exec (.subS b.a k) s = .next { s with rq := s.rq ++ [⟨.ok, r, 0, 0, 0⟩] } ∧
      ∀ j < 4, (chan r j : ℤ) = max ((chan b.a j : ℤ) - (k.toNat : ℤ)) 0

/-- R65: MUL.S multiplies every channel by the scalar `cmd[15:8]` and saturates at 255. -/
def Obligations.MulScalarSaturates : Prop :=
  ∀ (b : Beat) (k : Byte) (s : State), b.cmd.toNat = 0x22 + 256 * k.toNat → Open s →
    decode b = .legal (.mulS b.a k) ∧
    ∃ r : Led, exec (.mulS b.a k) s = .next { s with rq := s.rq ++ [⟨.ok, r, 0, 0, 0⟩] } ∧
      ∀ j < 4, chan r j = min (chan b.a j * k.toNat) 255

/-- R66: DIV.S divides every channel by the scalar `cmd[15:8]`, truncating, and gives 0 for a zero scalar. -/
def Obligations.DivScalarTruncatesAndZeroes : Prop :=
  ∀ (b : Beat) (k : Byte) (s : State), b.cmd.toNat = 0x23 + 256 * k.toNat → Open s →
    decode b = .legal (.divS b.a k) ∧
    ∃ r : Led, exec (.divS b.a k) s = .next { s with rq := s.rq ++ [⟨.ok, r, 0, 0, 0⟩] } ∧
      ∀ j < 4, chan r j = if k.toNat = 0 then 0 else chan b.a j / k.toNat

/-- R67: ADD.F converts the factor in `f0` to a scalar first, then adds it to every channel and saturates at 255. -/
def Obligations.AddFactorConvertsThenAdds : Prop :=
  ∀ (b : Beat) (s : State), b.cmd = 0x00000030#32 → Open s →
    decode b = .legal (.addF b.a b.f0) ∧
    ∃ r : Led, exec (.addF b.a b.f0) s = .next { s with rq := s.rq ++ [⟨.ok, r, 0, 0, 0⟩] } ∧
      ∀ j < 4, chan r j = min (chan b.a j + (tobyte b.f0).toNat) 255

/-- R68: SUB.F converts the factor in `f0` to a scalar first, then subtracts it from every channel and saturates at 0. -/
def Obligations.SubFactorConvertsThenSubtracts : Prop :=
  ∀ (b : Beat) (s : State), b.cmd = 0x00000031#32 → Open s →
    decode b = .legal (.subF b.a b.f0) ∧
    ∃ r : Led, exec (.subF b.a b.f0) s = .next { s with rq := s.rq ++ [⟨.ok, r, 0, 0, 0⟩] } ∧
      ∀ j < 4, (chan r j : ℤ) = max ((chan b.a j : ℤ) - ((tobyte b.f0).toNat : ℤ)) 0

/-- R69: MUL.F converts the factor in `f0` to a scalar first, then multiplies every channel by it and saturates at 255; it does not scale. -/
def Obligations.MulFactorConvertsThenMultiplies : Prop :=
  ∀ (b : Beat) (s : State), b.cmd = 0x00000032#32 → Open s →
    decode b = .legal (.mulF b.a b.f0) ∧
    ∃ r : Led, exec (.mulF b.a b.f0) s = .next { s with rq := s.rq ++ [⟨.ok, r, 0, 0, 0⟩] } ∧
      ∀ j < 4, chan r j = min (chan b.a j * (tobyte b.f0).toNat) 255

/-- R70: DIV.F converts the factor in `f0` to a scalar first, then divides every channel by it, truncating, and gives 0 for a zero scalar. -/
def Obligations.DivFactorConvertsThenDivides : Prop :=
  ∀ (b : Beat) (s : State), b.cmd = 0x00000033#32 → Open s →
    decode b = .legal (.divF b.a b.f0) ∧
    ∃ r : Led, exec (.divF b.a b.f0) s = .next { s with rq := s.rq ++ [⟨.ok, r, 0, 0, 0⟩] } ∧
      ∀ j < 4, chan r j = if (tobyte b.f0).toNat = 0 then 0 else chan b.a j / (tobyte b.f0).toNat

/-- R76: CVT.L2F answers, in fo0, fo1, fo2, the binary32 values nearest to R/255, G/255 and B/255, each finite, not negative and at most 1,
and `rsp_res = 0`; white is dropped. -/
def Obligations.LedToFloatsRoundsEachChannel : Prop :=
  ∀ (b : Beat) (s : State), b.cmd = 0x00000040#32 → Open s →
    decode b = .legal (.cvtL2F b.a) ∧
    ∃ x y z : F32, exec (.cvtL2F b.a) s = .next { s with rq := s.rq ++ [⟨.ok, 0, x, y, z⟩] } ∧
      RoundsTo ((chan b.a 0 : ℚ) / 255) x ∧ RoundsTo ((chan b.a 1 : ℚ) / 255) y ∧ RoundsTo ((chan b.a 2 : ℚ) / 255) z ∧
      ∀ f ∈ [x, y, z], F32Finite f ∧ f32Sign f = false ∧ f32Value f ≤ 1

/-- R77: CVT.F2L answers the Led whose red, green and blue are `tobyte` of f0, f1 and f2, and whose white is 0. -/
def Obligations.FloatsToLedConvertsEachComponent : Prop :=
  ∀ (b : Beat) (s : State), b.cmd = 0x00000041#32 → Open s →
    decode b = .legal (.cvtF2L b.f0 b.f1 b.f2) ∧
    ∃ r : Led, exec (.cvtF2L b.f0 b.f1 b.f2) s = .next { s with rq := s.rq ++ [⟨.ok, r, 0, 0, 0⟩] } ∧
      chan r 0 = (tobyte b.f0).toNat ∧ chan r 1 = (tobyte b.f1).toNat ∧ chan r 2 = (tobyte b.f2).toNat ∧ chan r 3 = 0

/-- R78: CVT.F2S answers the Led with every channel `tobyte` of f0, and that Led is the one the `.F` commands combine with A. -/
def Obligations.FactorToScalarBroadcasts : Prop :=
  ∀ (b : Beat) (s : State), b.cmd = 0x00000042#32 → Open s →
    decode b = .legal (.cvtF2S b.f0) ∧
    ∃ r : Led, exec (.cvtF2S b.f0) s = .next { s with rq := s.rq ++ [⟨.ok, r, 0, 0, 0⟩] } ∧
      (∀ j < 4, chan r j = (tobyte b.f0).toNat) ∧
      ∀ (a : Led) (u : State), exec (.addF a b.f0) u = exec (.addL a r) u ∧ exec (.subF a b.f0) u = exec (.subL a r) u ∧
        exec (.mulF a b.f0) u = exec (.mulL a r) u ∧ exec (.divF a b.f0) u = exec (.divL a r) u

/-- R85: ENC puts the 32 bytes of A, in wire order and most significant bit first, each with last = 0, at the end of OQ and an OK response with zeros at the end
of RQ, in one step, when OQ has 32 free entries; until then there is no step. -/
def Obligations.EncEmitsThirtyTwoBytes : Prop :=
  ∀ (b : Beat) (s : State), b.cmd = 0x00000050#32 → Open s →
    decode b = .legal (.enc b.a) ∧
    (OqOpen s → exec (.enc b.a) s = .next { s with
      rq := s.rq ++ [⟨.ok, 0, 0, 0, 0⟩]
      oq := s.oq ++ (List.range 32).map fun i => ⟨wireByte b.a i, false⟩ }) ∧
    (¬ OqOpen s → ∀ t, exec (.enc b.a) s ≠ .next t)

/-- R86: ENCL puts the same 32 bytes in OQ, with last = 1 on byte 31 alone, and answers and waits as ENC does. -/
def Obligations.EnclMarksTheLastByte : Prop :=
  ∀ (b : Beat) (s : State), b.cmd = 0x00000051#32 → Open s →
    decode b = .legal (.encl b.a) ∧
    (OqOpen s → exec (.encl b.a) s = .next { s with
      rq := s.rq ++ [⟨.ok, 0, 0, 0, 0⟩]
      oq := s.oq ++ (List.range 32).map fun i => ⟨wireByte b.a i, decide (i = 31)⟩ }) ∧
    (¬ OqOpen s → ∀ t, exec (.encl b.a) s ≠ .next t)

/-! ### Conversion functions -/

/-- R10: `rne32` rounds every real ± num/den to a nearest binary32 value, ties to even, and to an infinity from 2^128 - 2^103 on. -/
def Obligations.RoundingIsNearestTiesToEven : Prop :=
  ∀ (negative : Bool) (num den : Nat), 0 < den →
    RoundsTo ((if negative then -1 else 1) * ((num : ℚ) / (den : ℚ))) (rne32 negative num den)

/-- R73: `tofloat(c)` is c/255 rounded to nearest even, finite and in [0, 1], `0x00000000` for 0, `0x3F800000` for 255, and strictly increasing in c. -/
def Obligations.ToFloatIsNearestAndIncreasing : Prop :=
  (∀ c : Channel, RoundsTo ((c.toNat : ℚ) / 255) (tofloat c) ∧ F32Finite (tofloat c) ∧
    0 ≤ f32Value (tofloat c) ∧ f32Value (tofloat c) ≤ 1) ∧
  tofloat 0 = 0x00000000#32 ∧ tofloat 255 = 0x3F800000#32 ∧
  ∀ c d : Channel, c.toNat < d.toNat → f32Value (tofloat c) < f32Value (tofloat d)

/-- R74: `tobyte` gives 0 for NaN; otherwise, with p the product by 255 rounded once (an infinity staying one), 0 where p is -inf or val(p) ≤ 0,
255 where p is +inf or val(p) ≥ 255, and val(p) truncated elsewhere. -/
def Obligations.ToByteClampsTheRoundedProduct : Prop :=
  ∀ f : F32,
    (f32IsNaN f = true → tobyte f = 0) ∧
    (f32IsNaN f = false → ∃ p : F32,
      (f32IsInf f = true → p = f) ∧ (f32IsInf f = false → RoundsTo (255 * f32Value f) p) ∧
      (f32IsInf p = true → tobyte f = if f32Sign p then 0 else 255) ∧
      (f32IsInf p = false → ((tobyte f).toNat : ℤ) =
        if f32Value p ≤ 0 then 0 else if 255 ≤ f32Value p then 255 else ⌊f32Value p⌋))

/-- R75: for every f that is not NaN, `tobyte(f)` is `min(max(floor(255 * val(f)), 0), 255)` on the exact real value, 255 for +inf and 0 for -inf: the
rounding of R74 never changes the result. -/
def Obligations.ToByteEqualsTheExactFloor : Prop :=
  ∀ f : F32, f32IsNaN f = false →
    ((tobyte f).toNat : ℤ) =
      if f32IsInf f then (if f32Sign f then 0 else 255) else min (max ⌊255 * f32Value f⌋ 0) 255

/-- R79: every channel survives CVT.L2F and CVT.F2L, so CVT.F2L of the three results of CVT.L2F A does what LDL3 A does; and the converse fails for
some float. -/
def Obligations.ChannelRoundTrip : Prop :=
  (∀ c : Channel, tobyte (tofloat c) = c) ∧
  (∀ (a : Led) (s t : State), exec (.cvtL2F a) s = .next t →
    ∃ r, t.rq = s.rq ++ [r] ∧ ∀ u, exec (.cvtF2L r.fo0 r.fo1 r.fo2) u = exec (.ldl3 a) u) ∧
  ∃ f : F32, f32IsNaN f = false ∧ tofloat (tobyte f) ≠ f

/-- R15: the interchange sequence of a Led is R, G, B, W, and the Led that it stands for is the Led again; the 3-element form gives the Led with
white 0. -/
def Obligations.InterchangeRoundTrip : Prop :=
  ∀ l : Led, (ser4 l).map BitVec.toNat = [chan l 0, chan l 1, chan l 2, chan l 3] ∧
    (ser3 l).map BitVec.toNat = [chan l 0, chan l 1, chan l 2] ∧
    ledOfSeq (ser4 l) = some l ∧
    ∃ m, ledOfSeq (ser3 l) = some m ∧ chan m 3 = 0 ∧ ∀ k < 3, chan m k = chan l k

/-! ### Steps, back-pressure and reset -/

/-- R25: with Accept the next turn and a beat on the channel, there is a step exactly when rst = 0, RQ has room and, for ENC and ENCL alone, OQ has 32 free entries;
`cmd_valid` is 1 and `cmd_ready` says so; and the step pushes one response and no beat, or exactly 32 beats for ENC and ENCL, and changes neither queue elsewhere (the plan and the offers are the model's, log 1 and log 13). -/
def Obligations.AcceptEnabledExactlyWhenRoom : Prop :=
  ∀ (s : State) (ts : List Turn) (b : Beat) (bs : List Beat),
    s.hosts ≤ 1 → s.turns = .accept :: ts → s.offers = b :: bs →
    let encoder : Prop := ∃ a, decode b = .legal (.enc a) ∨ decode b = .legal (.encl a)
    ((∃ t, step s = .next t) ↔ s.pins.rst = false ∧ s.rq.length < Config.rqDepth ∧
      (encoder → s.oq.length + 32 ≤ Config.oqDepth)) ∧
    (cmdValid s = true ∧ (cmdReady s = true ↔ ∃ t, step s = .next t)) ∧
    ∀ t, step s = .next t → t.offers = bs ∧ (∃ r, t.rq = s.rq ++ [r]) ∧
      ∃ es, t.oq = s.oq ++ es ∧ (encoder → es.length = 32) ∧ (¬ encoder → es = [])

/-- With RQ full no command is accepted, legal or not, whatever the state otherwise: every command waits (R25, R118; that the model stops under the name
rqFull is its choice, log 2). -/
def Obligations.FullResponseQueueBlocksEveryCommand : Prop :=
  ∀ (s : State), s.pins.rst = false → Config.rqDepth ≤ s.rq.length →
    (∀ i, exec i s = .fault .rqFull) ∧ ∀ b, acceptBeat b s = .fault .rqFull

/-- OQ without 32 free entries holds back ENC and ENCL and no other beat: every other one completes with OQ as it was (R25, R45, R97, R99). -/
def Obligations.OnlyEncoderCommandsWaitForBytes : Prop :=
  ∀ (s : State) (b : Beat), Open s → ¬ OqOpen s →
    if isEncoder b then acceptBeat b s = .fault .oqFull
    else ∃ r, acceptBeat b s = .next { s with rq := s.rq ++ [r] }

/-- R26: with Respond the next turn, out of reset, there is a step exactly when RQ is not empty and the host is ready, and the step takes the head entry of RQ to the
host and changes nothing else of the block (the plan and the history are the model's, log 1 and log 9). -/
def Obligations.RespondDeliversTheHead : Prop :=
  ∀ (s : State) (ts : List Turn), s.hosts ≤ 1 → s.turns = .respond :: ts → s.pins.rst = false →
    ((∃ t, step s = .next t) ↔ 0 < s.rq.length ∧ s.pins.rspReady = true) ∧
    ∀ t, step s = .next t → ∃ e rest, s.rq = e :: rest ∧
      t = { s with turns := ts, rq := rest, delivered := s.delivered ++ [e] }

/-- R27: with Emit the next turn, out of reset, there is a step exactly when OQ is not empty and the downstream is ready, and the step takes the head entry of OQ to the
downstream and changes nothing else of the block (the plan and the history are the model's, log 1 and log 9). -/
def Obligations.EmitDeliversTheHead : Prop :=
  ∀ (s : State) (ts : List Turn), s.hosts ≤ 1 → s.turns = .emit :: ts → s.pins.rst = false →
    ((∃ t, step s = .next t) ↔ 0 < s.oq.length ∧ s.pins.encReady = true) ∧
    ∀ t, step s = .next t → ∃ e rest, s.oq = e :: rest ∧
      t = { s with turns := ts, oq := rest, sent := s.sent ++ [e] }

/-- A reset edge leaves the queues as R29 says, whatever they held, and produces no response (R113). The offered beats are not accepted: R113 says that the host must
offer them again, and that they stay offered is how the model says it (DEDUCED, log 13). The reset turn is the plan's (log 1). -/
def Obligations.ResetEmptiesBothQueues : Prop :=
  ∀ (s : State) (ts : List Turn), s.hosts ≤ 1 → s.turns = .reset :: ts → s.pins.rst = true →
    ∃ t, step s = .next t ∧ (t.rq, t.oq) = (State.reset.rq, State.reset.oq) ∧ t.rq = [] ∧ t.oq = [] ∧
      t.offers = s.offers

/-- A reset does not take back what the downstream already has: the beats delivered so far stay with it, before those of the first frame after reset
(R114; the fields sent and stale are the model's, log 9). -/
def Obligations.ResetLeavesThePartialFrame : Prop :=
  ∀ (s t : State) (ts : List Turn), s.turns = .reset :: ts → step s = .next t →
    t.stale ++ t.sent = s.stale ++ s.sent ∧ t.sent = [] ∧ t.accepted = [] ∧ t.delivered = []

/-- While rst = 1, cmd_ready, rsp_valid and enc_valid are 0, and no Accept, Respond or Emit happens (R112, R25); and no payload has a value, since no valid
is 1 (10_state.md section 6, U10). -/
def Obligations.NothingMovesDuringReset : Prop :=
  ∀ s : State, s.pins.rst = true →
    cmdReady s = false ∧ rspValid s = false ∧ encValid s = false ∧ rspPayload s = none ∧ encPayload s = none ∧
    (∀ i t, exec i s ≠ .next t) ∧
    ∀ turn ts t, s.turns = turn :: ts → turn ∈ [Turn.accept, .respond, .emit] → step s ≠ .next t

/-- R29: after reset both queues are empty, rsp_valid and enc_valid are 0; and once reset is released cmd_ready is 1, whatever beat is offered. -/
def Obligations.ResetValues : Prop :=
  State.reset.rq = [] ∧ State.reset.oq = [] ∧ rspValid State.reset = false ∧ encValid State.reset = false ∧
  ∀ s : State, s.rq = [] → s.oq = [] → s.pins.rst = false → cmdReady s = true

/-- A response is presented exactly while RQ holds one out of reset, and it is the head entry with its status code; likewise for the encoder
stream (R21, R22; that a payload is absent while valid is 0 is U10). -/
def Obligations.PayloadIsTheHeadEntry : Prop :=
  ∀ s : State, s.pins.rst = false →
    (∀ r rest, s.rq = r :: rest → rspValid s = true ∧ rspPayload s = some (statusCode r.st, r.res, r.fo0, r.fo1, r.fo2)) ∧
    (∀ e rest, s.oq = e :: rest → encValid s = true ∧ encPayload s = some (e.data, e.last)) ∧
    (s.rq = [] → rspValid s = false ∧ rspPayload s = none) ∧ (s.oq = [] → encValid s = false ∧ encPayload s = none)

/-- The agents' pins change without any effect on the block (R23, R28; the turn is the model's, log 1). -/
def Obligations.DrivingPinsChangesOnlyPins : Prop :=
  ∀ (s : State) (p : Pins) (ts : List Turn), s.hosts ≤ 1 → s.turns = .drive p :: ts →
    step s = .next { s with turns := ts, pins := p }

/-- A configuration in which more than one host drives the command channel is refused, whatever the turn, no turn is taken in it, and no endless run goes
through it (R42, U1; log 8; the plan and the runs are the model's, log 1). -/
def Obligations.SecondHostIsRefused : Prop :=
  ∀ s : State, 1 < s.hosts →
    step s = .refused .secondHost ∧ (∀ turn t, ¬ Takes turn s t) ∧ ∀ states turns n, IsRun states turns → states n ≠ s

/-! ### Purity, order and invariants -/

/-- R28: what an accepted beat puts out is a function of the beat alone, and that is all the acceptance changes: the same response and bytes in every state
that takes it. -/
def Obligations.OutputsDependOnTheBeatAlone : Prop :=
  ∀ (b : Beat) (s t : State), acceptBeat b s = .next t →
    t = { s with rq := s.rq ++ (outputsOf b).1, oq := s.oq ++ (outputsOf b).2 }

/-- Right after reset the queue invariant holds: the queues are empty (R29), so within their capacities (R18, R19), and they and the history of what was accepted and
delivered since reset agree (R36, R37). The history fields are the model's (log 9), and that they are empty in State.reset is its choice (log 5). -/
def Obligations.QueueInvAtReset : Prop := QueueInv State.reset

/-- Every step keeps the queue invariant: capacities (R18, R19), one response for each accepted beat in order (R36), 32 bytes for each encoder
command in order (R37), none lost (R34, R38). What was accepted and delivered since reset is the model's history (log 9). -/
def Obligations.QueueInvKeptByEveryStep : Prop :=
  ∀ s t : State, QueueInv s → step s = .next t → QueueInv t

/-- The k-th response delivered since reset answers the k-th beat accepted since reset (R36, under the invariant that every step keeps; the history is the model's, log 9). -/
def Obligations.KthResponseAnswersKthCommand : Prop :=
  ∀ (s : State) (k : Nat) (r : Response), QueueInv s → s.delivered[k]? = some r →
    ∃ b, s.accepted[k]? = some b ∧ (outputsOf b).1 = [r]

/-- The bytes of the first n accepted beats, for every n, are the first bytes of those delivered and waiting: none is missing, out of order or interleaved with
another's (R37, R38, under the invariant; the history is the model's, log 9). -/
def Obligations.BytesStandInCommandOrder : Prop :=
  ∀ (s : State) (n : Nat), QueueInv s →
    (s.accepted.take n).flatMap (fun b => (outputsOf b).2) <+: s.sent ++ s.oq ∧
    ∀ b ∈ s.accepted, (outputsOf b).2.length = if isEncoder b then 32 else 0

/-- No byte other than `0xF0` and `0xC0` is ever on the encoder stream (R81, under the invariant; the history is the model's, log 9). -/
def Obligations.OnlyTwoSymbolsOnTheStream : Prop :=
  ∀ (s : State), QueueInv s → ∀ e ∈ s.sent ++ s.oq, e.data = 0xF0#8 ∨ e.data = 0xC0#8

/-- Two different steps of Accept, Respond and Emit that are both enabled can be taken in either order, with the same state after both
(R102, R35; the plan is the model's, log 1). -/
def Obligations.EnabledStepsCommute : Prop :=
  ∀ (s : State) (ts : List Turn) (x y : Turn) (t u : State),
    x ∈ [Turn.accept, .respond, .emit] → y ∈ [Turn.accept, .respond, .emit] → x ≠ y →
    step { s with turns := x :: y :: ts } = .next t → step { s with turns := y :: x :: ts } = .next u →
    ∃ v, step t = .next v ∧ step u = .next v

/-- R122. With the host and the downstream ready and out of reset, giving Respond and Emit as many turns as the queues have entries delivers every entry in order
and empties both. Along every endless run in which Respond and Emit are weakly fair, and the host and the downstream stay ready out of reset, every waiting response and every
waiting byte is delivered, in order; and if the host offers no further command, the run reaches its end, where no beat is offered and both queues are empty. A step
whose plan is at its end says that the run is over exactly in such a state. (The plan, the stop's name and the history are the model's: log 1, log 2, log 9.) -/
def Obligations.DrainDeliversEverything : Prop :=
  (∀ (s : State) (ts : List Turn), s.hosts ≤ 1 → s.pins = ⟨false, true, true⟩ →
    s.turns = List.replicate s.rq.length .respond ++ (List.replicate s.oq.length .emit ++ ts) →
    Sys2Proof.core.run (s.rq.length + s.oq.length) s = .next { s with
      turns := ts, rq := [], oq := [], delivered := s.delivered ++ s.rq, sent := s.sent ++ s.oq }) ∧
  (∀ (states : Nat → State) (turns : Nat → Turn) (n : Nat), IsRun states turns →
    WeaklyFair .respond states turns → WeaklyFair .emit states turns →
    (∀ m, n ≤ m → (states m).pins = ⟨false, true, true⟩) →
    (∃ m, n ≤ m ∧ (states n).delivered ++ (states n).rq <+: (states m).delivered) ∧
    (∃ m, n ≤ m ∧ (states n).sent ++ (states n).oq <+: (states m).sent) ∧
    ((states n).offers = [] → ∃ m, n ≤ m ∧ EndOfRun (states m))) ∧
  ∀ s : State, step s = .fault .runEnded ↔ s.hosts ≤ 1 ∧ s.turns = [] ∧ EndOfRun s

/-! ### Frames and the line -/

/-- R88 and R53: the commands of `ENCF L0, ..., L(N-1)` put out exactly 32 * N bytes, the concatenation of enc(L0) to enc(L(N-1)), and they are one whole
frame with nothing after it. -/
def Obligations.FrameIsThirtyTwoBytesALed : Prop :=
  ∀ (init : List Led) (last : Led),
    let beats := ((Pseudo.encf init last).expand.map encode).flatMap fun b => (outputsOf b).2
    beats.length = 32 * (init.length + 1) ∧
    beats.map (·.data) = (init ++ [last]).flatMap (fun l => (List.range 32).map (wireByte l)) ∧
    splitFrames beats = ([beats], [])

/-- ZERO, MKRGB, MKRGBW and BCAST each stand for one command, and it answers the Led that R53 says. -/
def Obligations.PseudoInstructionsAnswerTheirLed : Prop :=
  ∀ (s : State) (r g b w : Channel), Open s →
    (∃ i, Pseudo.zero.expand = [i] ∧ exec i s = .next { s with rq := s.rq ++ [⟨.ok, 0, 0, 0, 0⟩] }) ∧
    (∃ i l, (Pseudo.mkrgb r g b).expand = [i] ∧ exec i s = .next { s with rq := s.rq ++ [⟨.ok, l, 0, 0, 0⟩] } ∧
      [chan l 0, chan l 1, chan l 2, chan l 3] = [r.toNat, g.toNat, b.toNat, 0]) ∧
    (∃ i l, (Pseudo.mkrgbw r g b w).expand = [i] ∧ exec i s = .next { s with rq := s.rq ++ [⟨.ok, l, 0, 0, 0⟩] } ∧
      [chan l 0, chan l 1, chan l 2, chan l 3] = [r.toNat, g.toNat, b.toNat, w.toNat]) ∧
    (∃ i l, (Pseudo.bcast w).expand = [i] ∧ exec i s = .next { s with rq := s.rq ++ [⟨.ok, l, 0, 0, 0⟩] } ∧
      [chan l 0, chan l 1, chan l 2, chan l 3] = [w.toNat, w.toNat, w.toNat, w.toNat])

/-- On the line a Led is 256 bit periods: for each of its 32 bits in wire order, four high and four low periods for a 1 and two high and six low for
a 0 (R90, R92, R84). -/
def Obligations.LedOnTheLine : Prop :=
  ∀ l : Led, (frameLevels (encBeats l)).length = 256 ∧
    frameLevels (encBeats l) = (List.range 32).flatMap fun i =>
      if (chan l (wireChannel (i / 8))).testBit (7 - i % 8)
      then [true, true, true, true, false, false, false, false]
      else [true, true, false, false, false, false, false, false]

/-- Every complete frame that the downstream has received starts high on the line and ends with four low periods (R90, R95, under the invariant; the history is the
model's, log 9). -/
def Obligations.EveryFrameLeavesTheLineLow : Prop :=
  ∀ (s : State), QueueInv s → ∀ f ∈ (splitFrames s.sent).1,
    (frameLevels f).head? = some true ∧ (frameLevels f).drop ((frameLevels f).length - 4) = [false, false, false, false]

/-- A whole number of bit-clock periods lasts T_LATCH exactly when it is at least `latchPeriods`; and a conforming line is made of the frames, each with a gap before it that by
itself lasts at least T_LATCH, at every bit clock (R92, R94, R115). That gaps are whole bit-clock periods, rounded up, is the model's (DEDUCED, log 12), and
so is that the clock and the interval are rational numbers (log 18). -/
def Obligations.ConformingGapsLastTLatch : Prop :=
  ∀ (fBit tLatch : ℚ), 0 < fBit →
    (∀ n, latchPeriods fBit tLatch ≤ n ↔ tLatch ≤ seconds fBit n) ∧
    ∀ frames levels, ConformingLine fBit tLatch frames levels →
      (∃ segments tail, segments.map Prod.snd = frames ∧ levels = lineLevels segments tail ∧
        ∀ p ∈ segments, tLatch ≤ seconds fBit p.1) ∧
      frames.length * latchPeriods fBit tLatch + (frames.map fun f => 8 * f.length).sum ≤ levels.length

/-- R92 at 6.4 MHz: a bit period is 156.25 ns; the symbol of a logical bit is a high part and then a low part, 625 ns and 625 ns for a 1, 312.5 ns and 937.5 ns for a 0, 1.25 µs
together; a Led, by ENC or ENCL, is 256 periods and 40 µs; and the frame of N Leds that ENCF puts out is 256 N periods and 40 N µs. -/
def Obligations.SymbolTimesAtTheNominalClock : Prop :=
  let time : List Bool → ℚ := fun levels => seconds Config.fBitNominal levels.length
  let microsecond : ℚ := 1 / 1000000
  (∀ level : Bool, time [level] = 15625 / 100000 * microsecond) ∧
  (∀ bit : Bool, ∃ high low : List Bool, symbolLevels (sym bit) = high ++ low ∧
    (∀ x ∈ high, x = true) ∧ (∀ x ∈ low, x = false) ∧
    time high = (if bit then 625 / 1000 else 3125 / 10000) * microsecond ∧
    time low = (if bit then 625 / 1000 else 9375 / 10000) * microsecond ∧
    time (symbolLevels (sym bit)) = 125 / 100 * microsecond) ∧
  (∀ l : Led, ∀ beats ∈ [encBeats l, enclBeats l],
    (frameLevels beats).length = 256 ∧ time (frameLevels beats) = 40 * microsecond) ∧
  ∀ (init : List Led) (last : Led),
    let beats := ((Pseudo.encf init last).expand.map encode).flatMap fun b => (outputsOf b).2
    (frameLevels beats).length = 256 * (init.length + 1) ∧
    time (frameLevels beats) = 40 * (init.length + 1) * microsecond
end

