-- ==== Sys2Proof/Laws/Operands.lean ====
section
/-! SUPPORT. The Led word and the command word as numbers: what concatenation and slicing (R8, R13, R43) come to. -/

namespace Sys2Proof.Machine

/-- Concatenation as arithmetic (R8): the high part is shifted up by the width of the low part. -/
theorem append_toNat {v w : Nat} (x : BitVec v) (y : BitVec w) : (x ++ y).toNat = x.toNat * 2 ^ w + y.toNat := by
  rw [BitVec.toNat_append, ← Nat.shiftLeft_add_eq_or_of_lt y.isLt, Nat.shiftLeft_eq]

/-- `{r, g, b, w}` as a number (R13). -/
theorem led_toNat (r g b w : Channel) :
    (led r g b w).toNat = ((r.toNat * 256 + g.toNat) * 256 + b.toNat) * 256 + w.toNat := by
  change ((r ++ g ++ b ++ w : BitVec (8 + 8 + 8 + 8))).toNat = _
  simp only [append_toNat]
  norm_num

/-- The command word as a number (R43). -/
theorem commandWord_toNat (opc imm8 : Byte) : (commandWord opc imm8).toNat = imm8.toNat * 256 + opc.toNat := by
  change ((0#16 ++ imm8 ++ opc : BitVec (16 + 8 + 8))).toNat = _
  simp only [append_toNat]
  norm_num

theorem ledR_toNat (l : Led) : (ledR l).toNat = chan l 0 := by
  simp [ledR, chan, Nat.shiftRight_eq_div_pow]

theorem ledG_toNat (l : Led) : (ledG l).toNat = chan l 1 := by
  simp [ledG, chan, Nat.shiftRight_eq_div_pow]

theorem ledB_toNat (l : Led) : (ledB l).toNat = chan l 2 := by
  simp [ledB, chan, Nat.shiftRight_eq_div_pow]

theorem ledW_toNat (l : Led) : (ledW l).toNat = chan l 3 := by
  simp [ledW, chan]

/-- The channels of a Led put together from its channels (R13). -/
theorem chan_led (r g b w : Channel) :
    chan (led r g b w) 0 = r.toNat ∧ chan (led r g b w) 1 = g.toNat ∧ chan (led r g b w) 2 = b.toNat ∧
      chan (led r g b w) 3 = w.toNat := by
  have hr := r.isLt
  have hg := g.isLt
  have hb := b.isLt
  have hw := w.isLt
  simp only [chan, led_toNat]
  omega

@[simp] theorem ledR_led (r g b w : Channel) : ledR (led r g b w) = r :=
  BitVec.eq_of_toNat_eq ((ledR_toNat _).trans (chan_led r g b w).1)

@[simp] theorem ledG_led (r g b w : Channel) : ledG (led r g b w) = g :=
  BitVec.eq_of_toNat_eq ((ledG_toNat _).trans (chan_led r g b w).2.1)

@[simp] theorem ledB_led (r g b w : Channel) : ledB (led r g b w) = b :=
  BitVec.eq_of_toNat_eq ((ledB_toNat _).trans (chan_led r g b w).2.2.1)

@[simp] theorem ledW_led (r g b w : Channel) : ledW (led r g b w) = w :=
  BitVec.eq_of_toNat_eq ((ledW_toNat _).trans (chan_led r g b w).2.2.2)

/-- A Led is its four channels (R13). -/
@[simp] theorem led_channels (l : Led) : led (ledR l) (ledG l) (ledB l) (ledW l) = l := by
  apply BitVec.eq_of_toNat_eq
  have h := l.isLt
  simp only [led_toNat, ledR_toNat, ledG_toNat, ledB_toNat, ledW_toNat, chan]
  omega

/-- One channel of an elementwise operation, when the operation is given as arithmetic on numbers (R55). -/
theorem chan_map4 (op : Channel → Channel → Channel) (f : Nat → Nat → Nat)
    (hop : ∀ x y, (op x y).toNat = f x.toNat y.toNat) (l m : Led) (k : Nat) (hk : k < 4) :
    chan (map4 op l m) k = f (chan l k) (chan m k) := by
  obtain ⟨h0, h1, h2, h3⟩ := chan_led (op (ledR l) (ledR m)) (op (ledG l) (ledG m)) (op (ledB l) (ledB m)) (op (ledW l) (ledW m))
  unfold map4
  interval_cases k
  · rw [h0, hop, ledR_toNat, ledR_toNat]
  · rw [h1, hop, ledG_toNat, ledG_toNat]
  · rw [h2, hop, ledB_toNat, ledB_toNat]
  · rw [h3, hop, ledW_toNat, ledW_toNat]

/-- Every channel of a broadcast scalar is the scalar (R56). -/
theorem chan_bcast (s : Channel) (k : Nat) (hk : k < 4) : chan (bcast s) k = s.toNat := by
  obtain ⟨h0, h1, h2, h3⟩ := chan_led s s s s
  unfold bcast
  interval_cases k <;> assumption

theorem opcOf_toNat (c : Word) : (opcOf c).toNat = c.toNat % 256 := by simp [opcOf]

theorem imm8Of_toNat (c : Word) : (imm8Of c).toNat = c.toNat / 256 % 256 := by
  simp [imm8Of, Nat.shiftRight_eq_div_pow]

theorem rsvdOf_toNat (c : Word) : (rsvdOf c).toNat = c.toNat / 65536 := by
  have h := c.isLt
  simp only [rsvdOf, BitVec.extractLsb'_toNat, Nat.shiftRight_eq_div_pow]
  omega

@[simp] theorem opcOf_commandWord (opc imm8 : Byte) : opcOf (commandWord opc imm8) = opc := by
  apply BitVec.eq_of_toNat_eq
  have h := opc.isLt
  rw [opcOf_toNat, commandWord_toNat]
  omega

@[simp] theorem imm8Of_commandWord (opc imm8 : Byte) : imm8Of (commandWord opc imm8) = imm8 := by
  apply BitVec.eq_of_toNat_eq
  have h := opc.isLt
  have h' := imm8.isLt
  rw [imm8Of_toNat, commandWord_toNat]
  omega

@[simp] theorem rsvdOf_commandWord (opc imm8 : Byte) : rsvdOf (commandWord opc imm8) = 0#16 := by
  apply BitVec.eq_of_toNat_eq
  have h := opc.isLt
  have h' := imm8.isLt
  rw [rsvdOf_toNat, commandWord_toNat]
  simp
  omega

/-- A command word is determined by its three fields (R43). -/
theorem word_of_fields (c : Word) (h : rsvdOf c = 0#16) : c = commandWord (opcOf c) (imm8Of c) := by
  apply BitVec.eq_of_toNat_eq
  have hr := congrArg BitVec.toNat h
  rw [rsvdOf_toNat] at hr
  have hc := c.isLt
  rw [commandWord_toNat, opcOf_toNat, imm8Of_toNat]
  simp at hr
  omega

theorem sadd_toNat (x y : Channel) : (sadd x y).toNat = min (x.toNat + y.toNat) 255 := by
  simp only [sadd, BitVec.toNat_ofNat]
  omega

theorem ssub_toNat (x y : Channel) : (ssub x y).toNat = x.toNat - y.toNat := by
  have h := x.isLt
  simp only [ssub, BitVec.toNat_ofNat]
  omega

theorem smul_toNat (x y : Channel) : (smul x y).toNat = min (x.toNat * y.toNat) 255 := by
  simp only [smul, BitVec.toNat_ofNat]
  omega

theorem sdiv_toNat (x y : Channel) : (sdiv x y).toNat = if y.toNat = 0 then 0 else x.toNat / y.toNat := by
  have hx := x.isLt
  by_cases hy : y = 0#8
  · simp [sdiv, hy]
  · have hy' : y.toNat ≠ 0 := fun h => hy (BitVec.eq_of_toNat_eq (by simpa using h))
    have hd : x.toNat / y.toNat ≤ x.toNat := Nat.div_le_self _ _
    simp only [sdiv, hy, hy', if_false, BitVec.toNat_ofNat]
    exact Nat.mod_eq_of_lt (lt_of_le_of_lt hd hx)

end Sys2Proof.Machine
end

