-- ==== Sys2Proof/Laws/Decode.lean ====
section
/-! SUPPORT. What decoding can answer (R47), said once. -/

namespace Sys2Proof.Machine

/-- Decoding a word of known fields (R43, R47). -/
theorem decode_commandWord (b : Beat) (opc imm8 : Byte) (h : b.cmd = commandWord opc imm8) :
    decode b = match scalarCommand opc b with
      | some i => .legal i
      | none =>
        match plainCommand opc b with
        | some i => if imm8 ≠ 0#8 then .ill .imm8Nonzero else .legal i
        | none => .ill .reservedOpc := by
  unfold decode
  simp only [h, rsvdOf_commandWord, opcOf_commandWord, imm8Of_commandWord]
  cases scalarCommand opc b <;> cases plainCommand opc b <;> simp

/-- A legal word has no reserved bit set, and its OPC is one of the four that read IMM8, or one of the sixteen others with IMM8 = 0 (R47). -/
theorem decode_legal_iff (b : Beat) (i : Instr) :
    decode b = .legal i ↔ rsvdOf b.cmd = 0#16 ∧ (scalarCommand (opcOf b.cmd) b = some i ∨
      (scalarCommand (opcOf b.cmd) b = none ∧ plainCommand (opcOf b.cmd) b = some i ∧ imm8Of b.cmd = 0#8)) := by
  unfold decode
  by_cases hr : rsvdOf b.cmd = 0#16
  · by_cases hi : imm8Of b.cmd = 0#8
    · cases hs : scalarCommand (opcOf b.cmd) b <;> cases hp : plainCommand (opcOf b.cmd) b <;> simp [hr, hi]
    · cases hs : scalarCommand (opcOf b.cmd) b <;> cases hp : plainCommand (opcOf b.cmd) b <;> simp [hr, hi]
  · simp [hr]

/-- A word is illegal exactly when it has no legal reading: decoding is total (R47). -/
theorem decode_ill_iff (b : Beat) : (∃ why, decode b = .ill why) ↔ ∀ i, decode b ≠ .legal i := by
  cases decode b <;> simp

/-- The four OPC values with a scalar (R46). -/
theorem scalarCommand_eq_none_iff (opc : Byte) (b : Beat) :
    scalarCommand opc b = none ↔ opc ∉ [0x20#8, 0x21#8, 0x22#8, 0x23#8] := by
  unfold scalarCommand
  split <;> simp_all

/-- The sixteen OPC values without one (R46). -/
theorem plainCommand_eq_none_iff (opc : Byte) (b : Beat) :
    plainCommand opc b = none ↔ opc ∉ [0x00#8, 0x01#8, 0x02#8, 0x10#8, 0x11#8, 0x12#8, 0x13#8, 0x30#8, 0x31#8, 0x32#8, 0x33#8,
      0x40#8, 0x41#8, 0x42#8, 0x50#8, 0x51#8] := by
  unfold plainCommand
  split <;> simp_all

end Sys2Proof.Machine
end

