-- ==== Sys2Proof/Laws/Encoder.lean ====
section
/-! SUPPORT. The encoder's bytes in the terms of R84, and the OPC of a beat as the lists of R45 read it. -/

namespace Sys2Proof.Machine

theorem chan_lt (l : Led) (k : Nat) : chan l k < 256 := by
  unfold chan
  omega

/-- The wire word as a number: green, red, blue, white (R82). -/
theorem wire_toNat (l : Led) :
    (wire l).toNat = ((chan l 1 * 256 + chan l 0) * 256 + chan l 2) * 256 + chan l 3 := by
  change ((ledG l ++ ledR l ++ ledB l ++ ledW l : BitVec (8 + 8 + 8 + 8))).toNat = _
  simp only [append_toNat, ledG_toNat, ledR_toNat, ledB_toNat, ledW_toNat]
  norm_num

/-- Bit 31 - i of the wire word is bit 7 - (i mod 8) of channel i div 8 in wire order (R84). -/
theorem wire_bit (l : Led) (i : Nat) (hi : i < 32) :
    (wire l).getLsbD (31 - i) = (chan l (wireChannel (i / 8))).testBit (7 - i % 8) := by
  have h0 := chan_lt l 0
  have h1 := chan_lt l 1
  have h2 := chan_lt l 2
  have h3 := chan_lt l 3
  rw [← BitVec.testBit_toNat, wire_toNat, show 31 - i = (7 - i % 8) + 8 * (3 - i / 8) by omega,
    ← Nat.testBit_div_two_pow]
  have hq : i / 8 < 4 := by omega
  have hr : 7 - i % 8 < 8 := by omega
  generalize i / 8 = q at *
  generalize 7 - i % 8 = r at *
  have low : ∀ x y, y = x % 256 → x.testBit r = y.testBit r := by
    rintro x y rfl
    rw [show 256 = 2 ^ 8 by rfl, Nat.testBit_mod_two_pow]
    simp [hr]
  apply low
  interval_cases q <;> simp [wireChannel] <;> omega

/-- `enc(L)` byte by byte, as R84 restates it. -/
theorem encBytes_eq (l : Led) : encBytes l = (List.range 32).map (wireByte l) := by
  apply List.map_congr_left
  intro i hi
  simp only [sym, wireByte, wire_bit l i (List.mem_range.1 hi)]

/-- The low byte of the command word, as the tables of R45 and R46 write it. -/
theorem low_byte (c : Word) : c &&& 0xFF#32 = (opcOf c).setWidth 32 := by
  apply BitVec.eq_of_toNat_eq
  have h : (255 : Nat) = 2 ^ 8 - 1 := rfl
  rw [BitVec.toNat_and, BitVec.toNat_ofNat, BitVec.toNat_setWidth, opcOf_toNat, Nat.mod_eq_of_lt (by norm_num : 255 < 2 ^ 32), h,
    Nat.and_two_pow_sub_one_eq_mod]
  omega

theorem opcIn_iff (b : Beat) (l : List Word) : b.opcIn l = true ↔ (opcOf b.cmd).setWidth 32 ∈ l := by
  unfold Beat.opcIn
  rw [low_byte]
  simp

end Sys2Proof.Machine
end

