-- ==== Sys2Proof/Laws/State.lean ====
section
/-! SUPPORT. What each update of the state leaves in each field: one lemma for each update and field, so that no proof unfolds a record. -/

namespace Sys2Proof.Machine

variable (s : State)

@[simp] theorem State.push_rq (r : Response) (bs : List EncBeat) : (s.push r bs).rq = s.rq ++ [r] := rfl
@[simp] theorem State.push_oq (r : Response) (bs : List EncBeat) : (s.push r bs).oq = s.oq ++ bs := rfl
@[simp] theorem State.push_pins (r : Response) (bs : List EncBeat) : (s.push r bs).pins = s.pins := rfl
@[simp] theorem State.push_hosts (r : Response) (bs : List EncBeat) : (s.push r bs).hosts = s.hosts := rfl
@[simp] theorem State.push_offers (r : Response) (bs : List EncBeat) : (s.push r bs).offers = s.offers := rfl
@[simp] theorem State.push_turns (r : Response) (bs : List EncBeat) : (s.push r bs).turns = s.turns := rfl
@[simp] theorem State.push_accepted (r : Response) (bs : List EncBeat) : (s.push r bs).accepted = s.accepted := rfl
@[simp] theorem State.push_delivered (r : Response) (bs : List EncBeat) : (s.push r bs).delivered = s.delivered := rfl
@[simp] theorem State.push_sent (r : Response) (bs : List EncBeat) : (s.push r bs).sent = s.sent := rfl
@[simp] theorem State.push_stale (r : Response) (bs : List EncBeat) : (s.push r bs).stale = s.stale := rfl

@[simp] theorem State.fetched_rq (b : Beat) (rest : List Beat) : (s.fetched b rest).rq = s.rq := rfl
@[simp] theorem State.fetched_oq (b : Beat) (rest : List Beat) : (s.fetched b rest).oq = s.oq := rfl
@[simp] theorem State.fetched_pins (b : Beat) (rest : List Beat) : (s.fetched b rest).pins = s.pins := rfl
@[simp] theorem State.fetched_hosts (b : Beat) (rest : List Beat) : (s.fetched b rest).hosts = s.hosts := rfl
@[simp] theorem State.fetched_offers (b : Beat) (rest : List Beat) : (s.fetched b rest).offers = rest := rfl
@[simp] theorem State.fetched_turns (b : Beat) (rest : List Beat) : (s.fetched b rest).turns = s.turns := rfl
@[simp] theorem State.fetched_accepted (b : Beat) (rest : List Beat) : (s.fetched b rest).accepted = s.accepted ++ [b] := rfl
@[simp] theorem State.fetched_delivered (b : Beat) (rest : List Beat) : (s.fetched b rest).delivered = s.delivered := rfl
@[simp] theorem State.fetched_sent (b : Beat) (rest : List Beat) : (s.fetched b rest).sent = s.sent := rfl
@[simp] theorem State.fetched_stale (b : Beat) (rest : List Beat) : (s.fetched b rest).stale = s.stale := rfl

@[simp] theorem State.nextTurn_rq (rest : List Turn) : (s.nextTurn rest).rq = s.rq := rfl
@[simp] theorem State.nextTurn_oq (rest : List Turn) : (s.nextTurn rest).oq = s.oq := rfl
@[simp] theorem State.nextTurn_pins (rest : List Turn) : (s.nextTurn rest).pins = s.pins := rfl
@[simp] theorem State.nextTurn_hosts (rest : List Turn) : (s.nextTurn rest).hosts = s.hosts := rfl
@[simp] theorem State.nextTurn_offers (rest : List Turn) : (s.nextTurn rest).offers = s.offers := rfl
@[simp] theorem State.nextTurn_turns (rest : List Turn) : (s.nextTurn rest).turns = rest := rfl
@[simp] theorem State.nextTurn_accepted (rest : List Turn) : (s.nextTurn rest).accepted = s.accepted := rfl
@[simp] theorem State.nextTurn_delivered (rest : List Turn) : (s.nextTurn rest).delivered = s.delivered := rfl
@[simp] theorem State.nextTurn_sent (rest : List Turn) : (s.nextTurn rest).sent = s.sent := rfl
@[simp] theorem State.nextTurn_stale (rest : List Turn) : (s.nextTurn rest).stale = s.stale := rfl

@[simp] theorem State.popResponse_rq (r : Response) (rest : List Response) : (s.popResponse r rest).rq = rest := rfl
@[simp] theorem State.popResponse_oq (r : Response) (rest : List Response) : (s.popResponse r rest).oq = s.oq := rfl
@[simp] theorem State.popResponse_pins (r : Response) (rest : List Response) : (s.popResponse r rest).pins = s.pins := rfl
@[simp] theorem State.popResponse_hosts (r : Response) (rest : List Response) : (s.popResponse r rest).hosts = s.hosts := rfl
@[simp] theorem State.popResponse_offers (r : Response) (rest : List Response) : (s.popResponse r rest).offers = s.offers := rfl
@[simp] theorem State.popResponse_turns (r : Response) (rest : List Response) : (s.popResponse r rest).turns = s.turns := rfl
@[simp] theorem State.popResponse_accepted (r : Response) (rest : List Response) : (s.popResponse r rest).accepted = s.accepted := rfl
@[simp] theorem State.popResponse_delivered (r : Response) (rest : List Response) : (s.popResponse r rest).delivered = s.delivered ++ [r] := rfl
@[simp] theorem State.popResponse_sent (r : Response) (rest : List Response) : (s.popResponse r rest).sent = s.sent := rfl
@[simp] theorem State.popResponse_stale (r : Response) (rest : List Response) : (s.popResponse r rest).stale = s.stale := rfl

@[simp] theorem State.popByte_rq (e : EncBeat) (rest : List EncBeat) : (s.popByte e rest).rq = s.rq := rfl
@[simp] theorem State.popByte_oq (e : EncBeat) (rest : List EncBeat) : (s.popByte e rest).oq = rest := rfl
@[simp] theorem State.popByte_pins (e : EncBeat) (rest : List EncBeat) : (s.popByte e rest).pins = s.pins := rfl
@[simp] theorem State.popByte_hosts (e : EncBeat) (rest : List EncBeat) : (s.popByte e rest).hosts = s.hosts := rfl
@[simp] theorem State.popByte_offers (e : EncBeat) (rest : List EncBeat) : (s.popByte e rest).offers = s.offers := rfl
@[simp] theorem State.popByte_turns (e : EncBeat) (rest : List EncBeat) : (s.popByte e rest).turns = s.turns := rfl
@[simp] theorem State.popByte_accepted (e : EncBeat) (rest : List EncBeat) : (s.popByte e rest).accepted = s.accepted := rfl
@[simp] theorem State.popByte_delivered (e : EncBeat) (rest : List EncBeat) : (s.popByte e rest).delivered = s.delivered := rfl
@[simp] theorem State.popByte_sent (e : EncBeat) (rest : List EncBeat) : (s.popByte e rest).sent = s.sent ++ [e] := rfl
@[simp] theorem State.popByte_stale (e : EncBeat) (rest : List EncBeat) : (s.popByte e rest).stale = s.stale := rfl

@[simp] theorem State.cleared_rq : s.cleared.rq = [] := rfl
@[simp] theorem State.cleared_oq : s.cleared.oq = [] := rfl
@[simp] theorem State.cleared_pins : s.cleared.pins = s.pins := rfl
@[simp] theorem State.cleared_hosts : s.cleared.hosts = s.hosts := rfl
@[simp] theorem State.cleared_offers : s.cleared.offers = s.offers := rfl
@[simp] theorem State.cleared_turns : s.cleared.turns = s.turns := rfl
@[simp] theorem State.cleared_accepted : s.cleared.accepted = [] := rfl
@[simp] theorem State.cleared_delivered : s.cleared.delivered = [] := rfl
@[simp] theorem State.cleared_sent : s.cleared.sent = [] := rfl
@[simp] theorem State.cleared_stale : s.cleared.stale = s.stale ++ s.sent := rfl

@[simp] theorem State.drained_rq : s.drained.rq = [] := rfl
@[simp] theorem State.drained_oq : s.drained.oq = [] := rfl
@[simp] theorem State.drained_pins : s.drained.pins = s.pins := rfl
@[simp] theorem State.drained_hosts : s.drained.hosts = s.hosts := rfl
@[simp] theorem State.drained_offers : s.drained.offers = s.offers := rfl
@[simp] theorem State.drained_turns : s.drained.turns = s.turns := rfl
@[simp] theorem State.drained_accepted : s.drained.accepted = s.accepted := rfl
@[simp] theorem State.drained_delivered : s.drained.delivered = s.delivered ++ s.rq := rfl
@[simp] theorem State.drained_sent : s.drained.sent = s.sent ++ s.oq := rfl
@[simp] theorem State.drained_stale : s.drained.stale = s.stale := rfl

@[simp] theorem State.driven_rq (p : Pins) : (s.driven p).rq = s.rq := rfl
@[simp] theorem State.driven_oq (p : Pins) : (s.driven p).oq = s.oq := rfl
@[simp] theorem State.driven_pins (p : Pins) : (s.driven p).pins = p := rfl
@[simp] theorem State.driven_hosts (p : Pins) : (s.driven p).hosts = s.hosts := rfl
@[simp] theorem State.driven_offers (p : Pins) : (s.driven p).offers = s.offers := rfl
@[simp] theorem State.driven_turns (p : Pins) : (s.driven p).turns = s.turns := rfl
@[simp] theorem State.driven_accepted (p : Pins) : (s.driven p).accepted = s.accepted := rfl
@[simp] theorem State.driven_delivered (p : Pins) : (s.driven p).delivered = s.delivered := rfl
@[simp] theorem State.driven_sent (p : Pins) : (s.driven p).sent = s.sent := rfl
@[simp] theorem State.driven_stale (p : Pins) : (s.driven p).stale = s.stale := rfl

@[simp] theorem State.offering_rq (b : Beat) : (s.offering b).rq = [] := rfl
@[simp] theorem State.offering_oq (b : Beat) : (s.offering b).oq = [] := rfl
@[simp] theorem State.offering_pins (b : Beat) : (s.offering b).pins = { s.pins with rst := false } := rfl
@[simp] theorem State.offering_hosts (b : Beat) : (s.offering b).hosts = 1 := rfl
@[simp] theorem State.offering_offers (b : Beat) : (s.offering b).offers = b :: s.offers := rfl
@[simp] theorem State.offering_turns (b : Beat) : (s.offering b).turns = .accept :: s.turns := rfl
@[simp] theorem State.offering_accepted (b : Beat) : (s.offering b).accepted = s.accepted := rfl
@[simp] theorem State.offering_delivered (b : Beat) : (s.offering b).delivered = s.delivered ++ s.rq := rfl
@[simp] theorem State.offering_sent (b : Beat) : (s.offering b).sent = s.sent ++ s.oq := rfl
@[simp] theorem State.offering_stale (b : Beat) : (s.offering b).stale = s.stale := rfl

/-- What reset leaves in the two queues (R29). -/
@[simp] theorem State.reset_rq : State.reset.rq = [] := rfl
@[simp] theorem State.reset_oq : State.reset.oq = [] := rfl
@[simp] theorem State.reset_pins : State.reset.pins = ⟨false, true, true⟩ := rfl
@[simp] theorem State.reset_hosts : State.reset.hosts = 1 := rfl
@[simp] theorem State.reset_offers : State.reset.offers = [] := rfl
@[simp] theorem State.reset_turns : State.reset.turns = [] := rfl
@[simp] theorem State.reset_accepted : State.reset.accepted = [] := rfl
@[simp] theorem State.reset_delivered : State.reset.delivered = [] := rfl
@[simp] theorem State.reset_sent : State.reset.sent = [] := rfl
@[simp] theorem State.reset_stale : State.reset.stale = [] := rfl

end Sys2Proof.Machine
end

