-- ==== Sys2Proof/Laws/Ops.lean ====
section
/-! SUPPORT. One lemma for each shared operation that says once everything it can do. -/

namespace Sys2Proof.Machine

theorem fits_iff : ∀ n m : Nat, fits n m = true ↔ n ≤ m
  | 0, m => by simp [fits]
  | n + 1, 0 => by simp [fits]
  | n + 1, m + 1 => by simp [fits, fits_iff n m]

theorem rqHasRoom_iff (s : State) : rqHasRoom s = true ↔ s.rq.length < Config.rqDepth := by
  rw [rqHasRoom, fits_iff, Config.rqDepth, Nat.lt_succ_iff]

theorem oqHasRoom_iff (s : State) : oqHasRoom s = true ↔ s.oq.length + 32 ≤ Config.oqDepth := by
  rw [oqHasRoom, fits_iff, Config.oqDepth, Nat.add_le_add_iff_right]

/-- A command is admitted exactly when rst = 0, RQ has room and, for an encoder command, OQ has room for 32 entries (R25). -/
theorem blockedBy_none_iff (encoder : Bool) (s : State) :
    blockedBy encoder s = none ↔ Open s ∧ (encoder = true → OqOpen s) := by
  unfold Open OqOpen
  rw [← rqHasRoom_iff, ← oqHasRoom_iff, blockedBy]
  cases s.pins.rst <;> cases rqHasRoom s <;> cases encoder <;> cases oqHasRoom s <;> simp

/-- Out of reset a full RQ is the reason, whatever the command (R118). -/
theorem blockedBy_rqFull (encoder : Bool) (s : State) (hrst : s.pins.rst = false)
    (hfull : Config.rqDepth ≤ s.rq.length) : blockedBy encoder s = some .rqFull := by
  have h : rqHasRoom s = false := by
    rw [← Bool.not_eq_true, rqHasRoom_iff]
    omega
  simp [blockedBy, hrst, h]

/-- With room in RQ, an encoder command without room in OQ waits for OQ (R118). -/
theorem blockedBy_oqFull (s : State) (hopen : Open s) (hfull : ¬ OqOpen s) : blockedBy true s = some .oqFull := by
  have hr : rqHasRoom s = true := (rqHasRoom_iff s).2 hopen.2
  have ho : oqHasRoom s = false := by
    rw [← Bool.not_eq_true, oqHasRoom_iff]
    exact hfull
  simp [blockedBy, hopen.1, hr, ho]

/-- `commit` takes a step exactly when the command is admitted, and the step pushes its response and its beats. -/
theorem commit_next_iff (encoder : Bool) (r : Response) (bs : List EncBeat) (s t : State) :
    commit encoder r bs s = .next t ↔ blockedBy encoder s = none ∧ t = s.push r bs := by
  unfold commit
  cases blockedBy encoder s <;> simp [eq_comm]

theorem commit_blocked (encoder : Bool) (r : Response) (bs : List EncBeat) (s : State) (f : Fault)
    (h : blockedBy encoder s = some f) : commit encoder r bs s = .fault f := by
  simp [commit, h]

theorem commit_admitted (encoder : Bool) (r : Response) (bs : List EncBeat) (s : State)
    (h : blockedBy encoder s = none) : commit encoder r bs s = .next (s.push r bs) := by
  simp [commit, h]

/-- A command that emits nothing completes whenever RQ takes it (R25). -/
theorem respond_open (r : Response) (s : State) (h : Open s) : respond r s = .next (s.push r []) :=
  commit_admitted _ _ _ _ ((blockedBy_none_iff false s).2 ⟨h, by simp⟩)

/-- An encoder command completes whenever RQ and OQ take it (R25). -/
theorem emitAndRespond_open (bs : List EncBeat) (r : Response) (s : State) (h : Open s) (ho : OqOpen s) :
    emitAndRespond bs r s = .next (s.push r bs) :=
  commit_admitted _ _ _ _ ((blockedBy_none_iff true s).2 ⟨h, fun _ => ho⟩)

/-- Pushing no beats leaves OQ as it is. -/
theorem State.push_nil (s : State) (r : Response) : s.push r [] = { s with rq := s.rq ++ [r] } := by
  simp [State.push]

/-- Respond takes a step exactly when it is enabled, and pops the head of RQ (R26). -/
theorem deliverResponse_next_iff (s t : State) :
    deliverResponse s = .next t ↔
      s.pins.rst = false ∧ s.pins.rspReady = true ∧ ∃ r rest, s.rq = r :: rest ∧ t = s.popResponse r rest := by
  unfold deliverResponse
  cases s.pins.rst <;> cases s.pins.rspReady <;> cases s.rq <;> simp [eq_comm]

/-- Emit takes a step exactly when it is enabled, and pops the head of OQ (R27). -/
theorem deliverByte_next_iff (s t : State) :
    deliverByte s = .next t ↔
      s.pins.rst = false ∧ s.pins.encReady = true ∧ ∃ e rest, s.oq = e :: rest ∧ t = s.popByte e rest := by
  unfold deliverByte
  cases s.pins.rst <;> cases s.pins.encReady <;> cases s.oq <;> simp [eq_comm]

/-- A reset edge takes a step exactly when rst = 1 (R112, R113). -/
theorem resetBlock_next_iff (s t : State) : resetBlock s = .next t ↔ s.pins.rst = true ∧ t = s.cleared := by
  unfold resetBlock
  cases s.pins.rst <;> simp [eq_comm]

theorem drivePins_next_iff (p : Pins) (s t : State) : drivePins p s = .next t ↔ t = s.driven p := by
  simp [drivePins, eq_comm]

end Sys2Proof.Machine
end

