-- ==== Sys2Proof/Laws/Exec.lean ====
section
/-! SUPPORT. What executing a command, accepting a beat and one step can do, said once. -/

namespace Sys2Proof.Machine

/-- The command needs space in OQ: it is ENC or ENCL (R25). -/
def needsOq : Instr → Bool
  | .enc _ | .encl _ => true
  | _ => false

@[simp] theorem encBytes_length (l : Led) : (encBytes l).length = 32 := by simp [encBytes]

@[simp] theorem encBeats_length (l : Led) : (encBeats l).length = 32 := by simp [encBeats]

@[simp] theorem enclBeats_length (l : Led) : (enclBeats l).length = 32 := by simp [enclBeats]

/-- Every command is one commit of an OK response and of beats that depend on the command alone: 32 of them for an encoder command, none
for another (R25, R28, R45). -/
theorem exec_is_commit (i : Instr) : ∃ r bs, r.st = .ok ∧ bs.length = (if needsOq i then 32 else 0) ∧
    ∀ s, exec i s = commit (needsOq i) r bs s := by
  cases i <;> exact ⟨_, _, rfl, by simp [needsOq], fun _ => rfl⟩

/-- Accepting a beat is one commit, of what the beat alone decides (R25, R28). -/
theorem acceptBeat_is_commit (b : Beat) : ∃ r bs, bs.length = (if isEncoder b then 32 else 0) ∧
    ∀ s, acceptBeat b s = commit (isEncoder b) r bs s := by
  cases hd : decode b with
  | ill why =>
    exact ⟨illResponse, [], by simp [isEncoder, hd], fun s => by simp [acceptBeat, isEncoder, hd, raiseIll, respond]⟩
  | legal i =>
    obtain ⟨r, bs, -, hl, hc⟩ := exec_is_commit i
    have he : isEncoder b = needsOq i := by
      unfold isEncoder
      rw [hd]
      cases i <;> rfl
    exact ⟨r, bs, by rw [he, hl], fun s => by rw [he, ← hc s, acceptBeat, hd]⟩

/-- A turn that takes a step is one of the five kinds, enabled, with its effect (R24 to R27, R113). -/
theorem takeTurn_next (turn : Turn) (s t : State) (h : takeTurn turn s = .next t) :
    (turn = .accept ∧ ∃ b rest, s.offers = b :: rest ∧ acceptBeat b (s.fetched b rest) = .next t) ∨
    (turn = .respond ∧ ∃ r rest, s.rq = r :: rest ∧ t = s.popResponse r rest) ∨
    (turn = .emit ∧ ∃ e rest, s.oq = e :: rest ∧ t = s.popByte e rest) ∨
    (turn = .reset ∧ t = s.cleared) ∨ (∃ p, turn = .drive p ∧ t = s.driven p) := by
  cases turn with
  | accept =>
    refine .inl ⟨rfl, ?_⟩
    simp only [takeTurn, acceptOffer] at h
    split at h
    · simp at h
    · exact ⟨_, _, ‹_›, h⟩
  | respond =>
    obtain ⟨-, -, r, rest, hq, ht⟩ := (deliverResponse_next_iff s t).1 h
    exact .inr (.inl ⟨rfl, r, rest, hq, ht⟩)
  | emit =>
    obtain ⟨-, -, e, rest, hq, ht⟩ := (deliverByte_next_iff s t).1 h
    exact .inr (.inr (.inl ⟨rfl, e, rest, hq, ht⟩))
  | reset => exact .inr (.inr (.inr (.inl ⟨rfl, ((resetBlock_next_iff s t).1 h).2⟩)))
  | drive p => exact .inr (.inr (.inr (.inr ⟨p, rfl, (drivePins_next_iff p s t).1 h⟩)))

/-- A step takes the plan's next turn, and one host drives the channel at most (R24, R42). -/
theorem step_next_iff (s t : State) :
    step s = .next t ↔ s.hosts ≤ 1 ∧ ∃ turn rest, s.turns = turn :: rest ∧ takeTurn turn (s.nextTurn rest) = .next t := by
  unfold step stepTurn
  by_cases hh : 1 < s.hosts
  · simp [hh]
  · cases hts : s.turns with
    | nil => cases runIsOver s <;> simp [hh]
    | cons turn rest => simp [hh]; omega

/-- The test for the end of a run says what R122 says. -/
theorem runIsOver_iff (s : State) : runIsOver s = true ↔ EndOfRun s := by
  simp [runIsOver, EndOfRun, List.isEmpty_iff, and_assoc]

/-- Accepting and taking a turn do not look at the rest of the plan, and leave it (R24). -/
theorem takeTurn_nextTurn (turn : Turn) (s t : State) (ts : List Turn) (h : takeTurn turn s = .next t) :
    takeTurn turn (s.nextTurn ts) = .next (t.nextTurn ts) := by
  cases turn with
  | accept =>
    simp only [takeTurn, acceptOffer] at h
    split at h
    · simp at h
    · rename_i b rest hb
      obtain ⟨r, bs, -, hc⟩ := acceptBeat_is_commit b
      rw [hc, commit_next_iff] at h
      simp only [takeTurn, acceptOffer, State.nextTurn_offers, hb, hc, commit_next_iff]
      exact ⟨h.1, by rw [h.2]; rfl⟩
  | respond =>
    obtain ⟨h1, h2, r, rest, hq, rfl⟩ := (deliverResponse_next_iff s t).1 h
    exact (deliverResponse_next_iff _ _).2 ⟨h1, h2, r, rest, hq, rfl⟩
  | emit =>
    obtain ⟨h1, h2, e, rest, hq, rfl⟩ := (deliverByte_next_iff s t).1 h
    exact (deliverByte_next_iff _ _).2 ⟨h1, h2, e, rest, hq, rfl⟩
  | reset =>
    obtain ⟨h1, rfl⟩ := (resetBlock_next_iff s t).1 h
    exact (resetBlock_next_iff _ _).2 ⟨h1, rfl⟩
  | drive p =>
    obtain rfl := (drivePins_next_iff p s t).1 h
    rfl

/-- No turn changes the plan, which is the step's (R24), or how many hosts there are (R42). -/
theorem takeTurn_frame (turn : Turn) (s t : State) (h : takeTurn turn s = .next t) :
    t.turns = s.turns ∧ t.hosts = s.hosts := by
  rcases takeTurn_next turn s t h with ⟨-, b, rest, -, ha⟩ | ⟨-, _, _, -, rfl⟩ | ⟨-, _, _, -, rfl⟩ | ⟨-, rfl⟩ | ⟨_, -, rfl⟩
  · obtain ⟨r, bs, -, hc⟩ := acceptBeat_is_commit b
    rw [hc, commit_next_iff] at ha
    rw [ha.2]
    exact ⟨rfl, rfl⟩
  all_goals exact ⟨rfl, rfl⟩

/-- Taking a turn is what `step` does with the turn next in the plan, whatever comes after it: the same states, and a second host refused by both (R24, R42). -/
theorem takes_iff_step (turn : Turn) (s t : State) (ts : List Turn) :
    Takes turn s t ↔ t.turns = s.turns ∧ step (s.nextTurn (turn :: ts)) = .next (t.nextTurn ts) := by
  rw [step_next_iff]
  constructor
  · rintro ⟨hh, h⟩
    exact ⟨(takeTurn_frame _ _ _ h).1, hh, turn, ts, rfl, takeTurn_nextTurn _ s _ _ h⟩
  · rintro ⟨ht, hh, _, _, h1, h⟩
    obtain ⟨rfl, rfl⟩ := List.cons.inj h1
    have h2 := takeTurn_nextTurn _ _ _ s.turns h
    refine ⟨hh, h2.trans ?_⟩
    rw [← ht]
    rfl

/-- No turn is taken in a configuration with a second host (R42). -/
theorem not_takes_of_secondHost (turn : Turn) (s t : State) (h : 1 < s.hosts) : ¬ Takes turn s t :=
  fun ht => absurd ht.1 (Nat.not_le.2 h)

/-- Whatever the state, the step after a word has been placed accepts it: R25 admits it at every depth (log 6). -/
theorem step_withFetchWord (s : State) (nbits w : Nat) : ∃ t, step (s.withFetchWord nbits w) = .next t := by
  obtain ⟨r, bs, -, hc⟩ := acceptBeat_is_commit (tableBeat nbits w)
  have h : acceptBeat (tableBeat nbits w) (((s.withFetchWord nbits w).nextTurn s.turns).fetched (tableBeat nbits w) s.offers)
      = .next ((((s.withFetchWord nbits w).nextTurn s.turns).fetched (tableBeat nbits w) s.offers).push r bs) := by
    rw [hc]
    apply commit_admitted
    rw [blockedBy_none_iff]
    simp [Open, OqOpen, State.withFetchWord, Config.rqDepth, Config.oqDepth]
  exact ⟨_, (step_next_iff _ _).2 ⟨le_rfl, .accept, s.turns, rfl, h⟩⟩

end Sys2Proof.Machine
end

