-- ==== Sys2Proof/Laws/Float.lean ====
section
/-! SUPPORT. binary32 in units of 2^-149: what a bit pattern made of an excess and a significand is worth, and what rounding a quotient gives. -/

namespace Sys2Proof.Machine

theorem f32Frac_lt (f : F32) : f32Frac f < 2 ^ 23 := (f.extractLsb' 0 23).isLt

theorem f32Exp_lt (f : F32) : f32Exp f < 256 := (f.extractLsb' 23 8).isLt

theorem f32Frac_eq (f : F32) : f32Frac f = f.toNat % 2 ^ 23 := by simp [f32Frac]

theorem f32Exp_eq (f : F32) : f32Exp f = f.toNat / 2 ^ 23 % 256 := by simp [f32Exp, Nat.shiftRight_eq_div_pow]

theorem f32Sign_eq (f : F32) : f32Sign f = decide (2 ^ 31 ≤ f.toNat) := by
  have h := f.isLt
  rw [f32Sign, ← BitVec.testBit_toNat, Nat.testBit_eq_decide_div_mod_eq]
  congr 1
  apply propext
  omega

/-- Every finite magnitude is a significand below 2^24 with some excess bits, and the significand is at least 2^23 unless there are
none (R10). -/
theorem f32Units_form (f : F32) :
    ∃ k q, f32Units f = q * 2 ^ k ∧ q < 2 ^ 24 ∧ (k = 0 ∨ 2 ^ 23 ≤ q) := by
  have h := f32Frac_lt f
  unfold f32Units
  split
  · exact ⟨0, f32Frac f, by simp, by omega, .inl rfl⟩
  · exact ⟨f32Exp f - 1, 2 ^ 23 + f32Frac f, rfl, by omega, .inr (by omega)⟩

/-- A significand up to 2^24, with its excess bits put above it, is worth what it should be, also where it carries into the exponent
(R10). -/
theorem f32Units_of_magnitude (negative : Bool) (k q : Nat) (hk : k = 0 ∨ 2 ^ 23 ≤ q) (hq : q ≤ 2 ^ 24)
    (hm : k * 2 ^ 23 + q < 0x7F800000) :
    f32Units (.ofNat 32 ((if negative then 2 ^ 31 else 0) + (k * 2 ^ 23 + q))) = q * 2 ^ k := by
  have hn : (BitVec.ofNat 32 ((if negative then 2 ^ 31 else 0) + (k * 2 ^ 23 + q))).toNat
      = (if negative then 2 ^ 31 else 0) + (k * 2 ^ 23 + q) := by
    rw [BitVec.toNat_ofNat, Nat.mod_eq_of_lt]
    cases negative <;> simp <;> omega
  have hm' : ((if negative then 2 ^ 31 else 0) + (k * 2 ^ 23 + q)) % 2 ^ 31 = k * 2 ^ 23 + q := by
    cases negative <;> simp <;> omega
  unfold f32Units
  rw [f32Exp_eq, f32Frac_eq, hn]
  generalize (if negative then 2 ^ 31 else 0) + (k * 2 ^ 23 + q) = m at *
  have he : m / 2 ^ 23 % 256 = (k * 2 ^ 23 + q) / 2 ^ 23 := by omega
  have hf : m % 2 ^ 23 = q % 2 ^ 23 := by omega
  rw [he, hf]
  rcases Nat.lt_or_ge q (2 ^ 23) with h | h
  · have hk0 : k = 0 := by omega
    subst hk0
    have : (0 * 2 ^ 23 + q) / 2 ^ 23 = 0 := by omega
    rw [if_pos this]
    omega
  · rcases Nat.lt_or_ge q (2 ^ 24) with h' | h'
    · have : (k * 2 ^ 23 + q) / 2 ^ 23 = k + 1 := by omega
      rw [this, if_neg (by omega), Nat.add_sub_cancel]
      congr 1
      omega
    · have : (k * 2 ^ 23 + q) / 2 ^ 23 = k + 2 := by omega
      rw [this, if_neg (by omega), show k + 2 - 1 = k + 1 by omega, show q % 2 ^ 23 = 0 by omega, pow_succ]
      rw [show q = 2 ^ 24 by omega]
      ring

/-- A rounded quotient is within half a divisor of the dividend, and where it is exactly half away it is even. -/
theorem roundDiv_spec (n d : Nat) (hd : 0 < d) :
    2 * n ≤ 2 * (roundDiv n d * d) + d ∧ 2 * (roundDiv n d * d) ≤ 2 * n + d ∧
      ((2 * n = 2 * (roundDiv n d * d) + d ∨ 2 * (roundDiv n d * d) = 2 * n + d) → roundDiv n d % 2 = 0) := by
  have h := Nat.div_add_mod' n d
  have hr := Nat.mod_lt n hd
  unfold roundDiv
  simp only
  generalize n / d = q at *
  generalize n % d = r at *
  split
  · rename_i hc
    rw [Nat.add_mul, Nat.one_mul]
    generalize q * d = qd at *
    omega
  · generalize q * d = qd at *
    omega

/-- The excess bits are as many as a 24-bit significand needs dropped, and no more. -/
theorem excessBits_spec (units : Nat) :
    units < 2 ^ (24 + excessBits units) ∧ (excessBits units = 0 ∨ 2 ^ (23 + excessBits units) ≤ units) := by
  unfold excessBits
  rcases Nat.eq_zero_or_pos units with rfl | hu
  · simp
  · have h1 : units < 2 ^ (Nat.log2 units + 1) := Nat.lt_log2_self
    have h2 : 2 ^ Nat.log2 units ≤ units := Nat.log2_self_le (by omega)
    rcases Nat.lt_or_ge (Nat.log2 units) 23 with h | h
    · refine ⟨lt_of_lt_of_le h1 (Nat.pow_le_pow_right (by norm_num) (by omega)), .inl (by omega)⟩
    · refine ⟨lt_of_lt_of_le h1 (Nat.pow_le_pow_right (by norm_num) (by omega)), .inr ?_⟩
      rwa [show 23 + (Nat.log2 units - 23) = Nat.log2 units by omega]

/-- A rounded magnitude is at most infinity's. -/
theorem rneMagnitude_le (num den : Nat) : rneMagnitude num den ≤ 0x7F800000 := min_le_right _ _

/-- Every NaN converts to 0 (R74). -/
theorem tobyte_nan (f : F32) (h : f32IsNaN f = true) : tobyte f = 0 := by simp [tobyte, h]

end Sys2Proof.Machine
end

