-- ==== Sys2Proof/Laws/PerInstr.lean ====
section
/-! SUPPORT. A statement for each command as syntax: the assembler's word for it is well formed (R47 to R50), whatever its operands. -/

namespace Sys2Proof.Laws

/-- The command's encoding is a well-formed beat. -/
def WordIsLegal.Statement (i : Instr) : Prop := (encode i).wellFormed = true

/-- A word with IMM8 = 0 and an assigned OPC is well formed: nothing in it is free, so this is one computation for each OPC. -/
theorem bare_wellFormed (opc : Byte) (h : wordWellFormed (commandWord opc 0) = true) :
    (bareBeat opc 0).wellFormed = true := h

/-- A word of one of the four `.S` commands is well formed for every scalar. -/
theorem scalar_wellFormed (opc s : Byte) (h : opc ∈ [0x20#8, 0x21#8, 0x22#8, 0x23#8]) :
    wordWellFormed (commandWord opc s) = true := by
  have hr : commandWord opc s &&& 0xFFFF0000#32 = 0#32 := by
    apply BitVec.eq_of_getLsbD_eq
    intro i hi
    simp only [commandWord, BitVec.getLsbD_and, BitVec.getLsbD_append]
    interval_cases i <;> simp
  have ho : commandWord opc s &&& 0xFF#32 = opc.setWidth 32 := by
    apply BitVec.eq_of_getLsbD_eq
    intro i hi
    simp only [commandWord, BitVec.getLsbD_and, BitVec.getLsbD_append, BitVec.getLsbD_setWidth]
    interval_cases i <;> simp
  simp only [wordWellFormed, rsvdZero, opcAssigned, imm8Allowed, hr, ho]
  simp only [List.mem_cons, List.not_mem_nil, or_false] at h
  rcases h with rfl | rfl | rfl | rfl <;> simp [tableRows, plainRows, scalarRows]

theorem WordIsLegal.nop : Statement (.nop) := bare_wellFormed 0x00 (by decide)
theorem WordIsLegal.ldl (a : Led) : Statement (.ldl a) := bare_wellFormed 0x01 (by decide)
theorem WordIsLegal.ldl3 (a : Led) : Statement (.ldl3 a) := bare_wellFormed 0x02 (by decide)
theorem WordIsLegal.addL (a b : Led) : Statement (.addL a b) := bare_wellFormed 0x10 (by decide)
theorem WordIsLegal.subL (a b : Led) : Statement (.subL a b) := bare_wellFormed 0x11 (by decide)
theorem WordIsLegal.mulL (a b : Led) : Statement (.mulL a b) := bare_wellFormed 0x12 (by decide)
theorem WordIsLegal.divL (a b : Led) : Statement (.divL a b) := bare_wellFormed 0x13 (by decide)
theorem WordIsLegal.addS (a : Led) (s : Byte) : Statement (.addS a s) := scalar_wellFormed 0x20 s (by simp)
theorem WordIsLegal.subS (a : Led) (s : Byte) : Statement (.subS a s) := scalar_wellFormed 0x21 s (by simp)
theorem WordIsLegal.mulS (a : Led) (s : Byte) : Statement (.mulS a s) := scalar_wellFormed 0x22 s (by simp)
theorem WordIsLegal.divS (a : Led) (s : Byte) : Statement (.divS a s) := scalar_wellFormed 0x23 s (by simp)
theorem WordIsLegal.addF (a : Led) (f : F32) : Statement (.addF a f) := bare_wellFormed 0x30 (by decide)
theorem WordIsLegal.subF (a : Led) (f : F32) : Statement (.subF a f) := bare_wellFormed 0x31 (by decide)
theorem WordIsLegal.mulF (a : Led) (f : F32) : Statement (.mulF a f) := bare_wellFormed 0x32 (by decide)
theorem WordIsLegal.divF (a : Led) (f : F32) : Statement (.divF a f) := bare_wellFormed 0x33 (by decide)
theorem WordIsLegal.cvtL2F (a : Led) : Statement (.cvtL2F a) := bare_wellFormed 0x40 (by decide)
theorem WordIsLegal.cvtF2L (f0 f1 f2 : F32) : Statement (.cvtF2L f0 f1 f2) := bare_wellFormed 0x41 (by decide)
theorem WordIsLegal.cvtF2S (f : F32) : Statement (.cvtF2S f) := bare_wellFormed 0x42 (by decide)
theorem WordIsLegal.enc (a : Led) : Statement (.enc a) := bare_wellFormed 0x50 (by decide)
theorem WordIsLegal.encl (a : Led) : Statement (.encl a) := bare_wellFormed 0x51 (by decide)

end Sys2Proof.Laws
end

