-- ==== Sys2Proof/Laws/Runs.lean ====
section
/-! SUPPORT. An endless run (R122) against the machine's own step: every finite part of one is a run of `step` whose plan is the turns taken. -/

namespace Sys2Proof.Machine

/-- The turns taken from moment n on, k of them. -/
def turnsFrom (turns : Nat → Turn) (n : Nat) : Nat → List Turn
  | 0 => []
  | k + 1 => turns n :: turnsFrom turns (n + 1) k

/-- No state of an endless run has a second host (R42). -/
theorem isRun_hosts_le {states : Nat → State} {turns : Nat → Turn} (h : IsRun states turns) (n : Nat) :
    (states n).hosts ≤ 1 := (h n).1

/-- From any moment of an endless run, the plan of its next k turns takes the machine to the state k moments later. -/
theorem run_of_isRun {states : Nat → State} {turns : Nat → Turn} (h : IsRun states turns) :
    ∀ (k n : Nat) (ts : List Turn),
      Sys2Proof.core.run k ((states n).nextTurn (turnsFrom turns n k ++ ts)) = .next ((states (n + k)).nextTurn ts)
  | 0, _, _ => rfl
  | k + 1, n, ts => by
    have hs : Sys2Proof.core.step ((states n).nextTurn (turnsFrom turns n (k + 1) ++ ts))
        = .next ((states (n + 1)).nextTurn (turnsFrom turns (n + 1) k ++ ts)) :=
      ((takes_iff_step _ _ _ _).1 (h n)).2
    have ih := run_of_isRun h k (n + 1) ts
    rw [Nat.add_right_comm n 1 k] at ih
    simpa [Host.Core.run, hs, Nat.add_assoc] using ih

end Sys2Proof.Machine
end

