-- ==== Sys2Proof/Tests/Slice0.lean ====
section
/-! SUPPORT. Tests: the well-formedness smoke, words written out from the spec's encodings, one step for each command against 95_test_vectors.md, and for each
statement with hypotheses a state and operands that meet them together. -/

namespace Sys2Proof.Tests

open Sys2Proof.Machine

/-! ### Ill-formed terms are refused -/

/-- `cmd[31:16] ≠ 0`: 0x00010020 of section 2.8. -/
theorem test_wf_rsvd : wordWellFormed 0x00010020 = false := by decide

/-- A reserved OPC: 0x00000043 of section 2.8. -/
theorem test_wf_opc : wordWellFormed 0x00000043 = false := by decide

/-- IMM8 on a command that does not read it: 0x00000110 of section 2.8. -/
theorem test_wf_imm8 : wordWellFormed 0x00000110 = false := by decide

/-- IMM8 on a command that reads it: 0x0000FF20 of section 2.8. -/
theorem test_wf_scalar : wordWellFormed 0x0000FF20 = true := by decide

/-- An unread field that is not 0: field a of NOP, field b of LDL, field f0 of ADD.L, field f2 of CVT.F2S (R45). -/
theorem test_canonical_refuses :
    Beat.canonical ⟨0x00, 1, 0, 0, 0, 0⟩ = false ∧ Beat.canonical ⟨0x01, 1, 2, 0, 0, 0⟩ = false ∧
      Beat.canonical ⟨0x10, 1, 2, 3, 0, 0⟩ = false ∧ Beat.canonical ⟨0x42, 0, 0, 3, 0, 5⟩ = false := by decide

theorem test_canonical_admits :
    Beat.canonical ⟨0x10, 1, 2, 0, 0, 0⟩ = true ∧ Beat.canonical ⟨0x41, 0, 0, 3, 4, 5⟩ = true := by decide

/-- A scalar above 255 (R52). -/
theorem test_scalar_operand : (ScalarOperand.imm 256).wellFormed = false ∧ (ScalarOperand.imm 255).wellFormed = true := by decide

/-- A decimal literal without a denominator (R52). -/
theorem test_float_operand : (FloatOperand.decimal false 1 0).wellFormed = false := by decide

/-- `f32(0.1)` is 0x3DCCCCCD (R10). -/
theorem test_f32_literal : floatOperandValue (.decimal false 1 10) = 0x3DCCCCCD := by decide

/-- The other operand forms (R52): `led(10, 20, 30, 40)`, a word, `bits(...)`, `#25`. -/
theorem test_operand_values : ledOperandValue (.led 10 20 30 40) = 0x0A141E28 ∧ ledOperandValue (.word 7) = 7 ∧
    floatOperandValue (.bits 0x7FC00000) = 0x7FC00000 ∧ scalarOperandValue (.imm 25) = 25 := by decide

/-! ### Words of the spec's encodings (30_encoding.md R43, R46: OPC in bits 7:0, IMM8 in bits 15:8) -/

theorem test_decode_control :
    decode ⟨0b00000000000000000000000000000000, 1, 2, 3, 4, 5⟩ = .legal .nop ∧
    decode ⟨0b00000000000000000000000000000001, 1, 2, 3, 4, 5⟩ = .legal (.ldl 1) ∧
    decode ⟨0b00000000000000000000000000000010, 1, 2, 3, 4, 5⟩ = .legal (.ldl3 1) := by decide

theorem test_decode_led :
    decode ⟨0b00000000000000000000000000010000, 1, 2, 3, 4, 5⟩ = .legal (.addL 1 2) ∧
    decode ⟨0b00000000000000000000000000010001, 1, 2, 3, 4, 5⟩ = .legal (.subL 1 2) ∧
    decode ⟨0b00000000000000000000000000010010, 1, 2, 3, 4, 5⟩ = .legal (.mulL 1 2) ∧
    decode ⟨0b00000000000000000000000000010011, 1, 2, 3, 4, 5⟩ = .legal (.divL 1 2) := by decide

theorem test_decode_scalar :
    decode ⟨0b00000000000000000001100100100000, 1, 2, 3, 4, 5⟩ = .legal (.addS 1 25) ∧
    decode ⟨0b00000000000000001111111100100001, 1, 2, 3, 4, 5⟩ = .legal (.subS 1 255) ∧
    decode ⟨0b00000000000000000000011100100010, 1, 2, 3, 4, 5⟩ = .legal (.mulS 1 7) ∧
    decode ⟨0b00000000000000001000000000100011, 1, 2, 3, 4, 5⟩ = .legal (.divS 1 128) := by decide

theorem test_decode_factor :
    decode ⟨0b00000000000000000000000000110000, 1, 2, 3, 4, 5⟩ = .legal (.addF 1 3) ∧
    decode ⟨0b00000000000000000000000000110001, 1, 2, 3, 4, 5⟩ = .legal (.subF 1 3) ∧
    decode ⟨0b00000000000000000000000000110010, 1, 2, 3, 4, 5⟩ = .legal (.mulF 1 3) ∧
    decode ⟨0b00000000000000000000000000110011, 1, 2, 3, 4, 5⟩ = .legal (.divF 1 3) := by decide

theorem test_decode_conversion :
    decode ⟨0b00000000000000000000000001000000, 1, 2, 3, 4, 5⟩ = .legal (.cvtL2F 1) ∧
    decode ⟨0b00000000000000000000000001000001, 1, 2, 3, 4, 5⟩ = .legal (.cvtF2L 3 4 5) ∧
    decode ⟨0b00000000000000000000000001000010, 1, 2, 3, 4, 5⟩ = .legal (.cvtF2S 3) := by decide

theorem test_decode_encoder :
    decode ⟨0b00000000000000000000000001010000, 1, 2, 3, 4, 5⟩ = .legal (.enc 1) ∧
    decode ⟨0b00000000000000000000000001010001, 1, 2, 3, 4, 5⟩ = .legal (.encl 1) := by decide

/-- The ends of each reserved range (R48), and the rows of section 2.8 for R49 and R50. -/
theorem test_decode_ill :
    ([0x03, 0x0F, 0x14, 0x1F, 0x24, 0x2F, 0x34, 0x3F, 0x43, 0x4F, 0x52, 0xFF, 0x124].all fun c =>
      decode ⟨.ofNat 32 c, 0, 0, 0, 0, 0⟩ = .ill .reservedOpc) = true ∧
    ([0x100, 0x110, 0x150, 0x141].all fun c => decode ⟨.ofNat 32 c, 0, 0, 0, 0, 0⟩ = .ill .imm8Nonzero) = true ∧
    ([0x10010, 0x80000000, 0xFFFFFFFF, 0x10020, 0x1FF22].all fun c =>
      decode ⟨.ofNat 32 c, 0, 0, 0, 0, 0⟩ = .ill .rsvdNonzero) = true := by decide

/-- A table word that gives the operand fields too: bits 63:32 are field a (log 7). -/
theorem test_table_word : decodeTableWord 32 0x00001920 = some (.addS 0 25) ∧
    decodeTableWord 64 0x0A141E2800000001 = some (.ldl 0x0A141E28) ∧ decodeTableWord 32 0x03 = none := by decide

/-! ### One step for each command, against the vectors of 95_test_vectors.md -/

/-- What is in RQ after the beat is offered to the block right after reset. -/
def answerTo (b : Beat) : Option (List Response) := (nextOf (step (State.reset.offering b))).map (·.rq)

/-- What is in OQ then. -/
def bytesOf (b : Beat) : Option (List (Byte × Bool)) :=
  (nextOf (step (State.reset.offering b))).map fun t => t.oq.map fun e => (e.data, e.last)

/-- section 2.6. -/
theorem test_nop : answerTo ⟨0x00000000, 1, 2, 3, 4, 5⟩ = some [⟨.ok, 0, 0, 0, 0⟩] := by decide

/-- section 2.6, unread fields. -/
theorem test_ldl : answerTo ⟨0x00000001, 0x0A141E28, 0xDEADBEEF, 0x7FC00000, 0, 0⟩ = some [⟨.ok, 0x0A141E28, 0, 0, 0⟩] := by decide

/-- R58. -/
theorem test_ldl3 : answerTo ⟨0x00000002, 0x336699FF, 0, 0, 0, 0⟩ = some [⟨.ok, 0x33669900, 0, 0, 0⟩] := by decide

/-- section 2.2 row 4. -/
theorem test_addL_lanes : answerTo ⟨0x00000010, 0x80808080, 0x7F808100, 0, 0, 0⟩ = some [⟨.ok, 0xFFFFFF80, 0, 0, 0⟩] := by decide

/-- W4. -/
theorem test_addL_source : answerTo ⟨0x00000010, 0x0A141E28, 0x0A0A0A0A, 0, 0, 0⟩ = some [⟨.ok, 0x141E2832, 0, 0, 0⟩] := by decide

/-- section 2.2 row 9. -/
theorem test_subL_lanes : answerTo ⟨0x00000011, 0xFF80FF01, 0x01800002, 0, 0, 0⟩ = some [⟨.ok, 0xFE00FF00, 0, 0, 0⟩] := by decide

/-- R61. -/
theorem test_mulL_lanes : answerTo ⟨0x00000012, 0x0A141E28, 0x020D0001, 0, 0, 0⟩ = some [⟨.ok, 0x14FF0028, 0, 0, 0⟩] := by decide

/-- section 2.2 row 11. -/
theorem test_mulL_boundary : answerTo ⟨0x00000012, 0x10100F11, 0x10111111, 0, 0, 0⟩ = some [⟨.ok, 0xFFFFFFFF, 0, 0, 0⟩] := by decide

/-- W6. -/
theorem test_divL_zero : answerTo ⟨0x00000013, 0x0A001E28, 0x02000104, 0, 0, 0⟩ = some [⟨.ok, 0x05001E0A, 0, 0, 0⟩] := by decide

/-- section 2.2 row 18. -/
theorem test_divL_truncates : answerTo ⟨0x00000013, 0x0305FF64, 0x0408030A, 0, 0, 0⟩ = some [⟨.ok, 0x0000550A, 0, 0, 0⟩] := by decide

/-- R63. -/
theorem test_addS : answerTo ⟨0x00001920, 0x0A141E28, 0, 0, 0, 0⟩ = some [⟨.ok, 0x232D3741, 0, 0, 0⟩] := by decide

/-- R64. -/
theorem test_subS : answerTo ⟨0x00001921, 0x0A141E28, 0, 0, 0, 0⟩ = some [⟨.ok, 0x0000050F, 0, 0, 0⟩] := by decide

/-- R65. -/
theorem test_mulS : answerTo ⟨0x00000722, 0x0A141E28, 0, 0, 0, 0⟩ = some [⟨.ok, 0x468CD2FF, 0, 0, 0⟩] := by decide

/-- R66. -/
theorem test_divS : answerTo ⟨0x00000323, 0x0A141E28, 0, 0, 0, 0⟩ = some [⟨.ok, 0x03060A0D, 0, 0, 0⟩] := by decide

/-- section 2.2. -/
theorem test_divS_zero : answerTo ⟨0x00000023, 0x0A141E28, 0, 0, 0, 0⟩ = some [⟨.ok, 0x00000000, 0, 0, 0⟩] := by decide

/-- W7. -/
theorem test_addF : answerTo ⟨0x00000030, 0x0A141E28, 0, 0x3DCCCCCD, 0, 0⟩ = some [⟨.ok, 0x232D3741, 0, 0, 0⟩] := by decide

/-- section 2.2. -/
theorem test_addF_negative : answerTo ⟨0x00000030, 0x0A141E28, 0, 0xBF000000, 0, 0⟩ = some [⟨.ok, 0x0A141E28, 0, 0, 0⟩] := by decide

/-- R68. -/
theorem test_subF : answerTo ⟨0x00000031, 0x64321E14, 0, 0x3DCCCCCD, 0, 0⟩ = some [⟨.ok, 0x4B190500, 0, 0, 0⟩] := by decide

/-- W11, the policy vector. -/
theorem test_mulF : answerTo ⟨0x00000032, 0x04030100, 0, 0x3EA8F5C3, 0, 0⟩ = some [⟨.ok, 0xFFFC5400, 0, 0, 0⟩] := by decide

/-- R70. -/
theorem test_divF : answerTo ⟨0x00000033, 0xC8643219, 0, 0x3F000000, 0, 0⟩ = some [⟨.ok, 0x01000000, 0, 0, 0⟩] := by decide

/-- section 2.2. -/
theorem test_divF_nan : answerTo ⟨0x00000033, 0x0A141E28, 0, 0x7FC00000, 0, 0⟩ = some [⟨.ok, 0x00000000, 0, 0, 0⟩] := by decide

/-- W9. -/
theorem test_cvtL2F : answerTo ⟨0x00000040, 0x3366CC00, 0, 0, 0, 0⟩ = some [⟨.ok, 0, 0x3E4CCCCD, 0x3ECCCCCD, 0x3F4CCCCD⟩] := by decide

/-- section 2.5. -/
theorem test_cvtL2F_ends : answerTo ⟨0x00000040, 0x017F8000, 0, 0, 0, 0⟩ = some [⟨.ok, 0, 0x3B808081, 0x3EFEFEFF, 0x3F008081⟩] := by decide

/-- W10. -/
theorem test_cvtF2L : answerTo ⟨0x00000041, 0, 0, 0x3E4CCCCD, 0x3ECCCCCD, 0x3F4CCCCD⟩ = some [⟨.ok, 0x3366CC00, 0, 0, 0⟩] := by decide

/-- section 2.5. -/
theorem test_cvtF2L_clamps : answerTo ⟨0x00000041, 0, 0, 0xBF000000, 0x3FC00000, 0x7FC00000⟩ = some [⟨.ok, 0x00FF0000, 0, 0, 0⟩] := by decide

/-- section 2.5. -/
theorem test_cvtF2S : answerTo ⟨0x00000042, 0, 0, 0x3F000000, 0, 0⟩ = some [⟨.ok, 0x7F7F7F7F, 0, 0, 0⟩] := by decide

/-- section 2.5. -/
theorem test_cvtF2S_inf : answerTo ⟨0x00000042, 0, 0, 0x7F800000, 0, 0⟩ = some [⟨.ok, 0xFFFFFFFF, 0, 0, 0⟩] := by decide

/-- P3 step 2. -/
theorem test_ill : answerTo ⟨0x00000143, 0x3366CC7F, 0, 0, 0, 0⟩ = some [⟨.ill, 0, 0, 0, 0⟩] := by decide

/-- W3. -/
theorem test_enc : bytesOf ⟨0x00000050, 0xAA00FF33, 0, 0, 0, 0⟩ = some [
      (0xC0, false), (0xC0, false), (0xC0, false), (0xC0, false), (0xC0, false), (0xC0, false), (0xC0, false), (0xC0, false),
      (0xF0, false), (0xC0, false), (0xF0, false), (0xC0, false), (0xF0, false), (0xC0, false), (0xF0, false), (0xC0, false),
      (0xF0, false), (0xF0, false), (0xF0, false), (0xF0, false), (0xF0, false), (0xF0, false), (0xF0, false), (0xF0, false),
      (0xC0, false), (0xC0, false), (0xF0, false), (0xF0, false), (0xC0, false), (0xC0, false), (0xF0, false), (0xF0, false)] := by decide

/-- P1, its second Led. -/
theorem test_encl : bytesOf ⟨0x00000051, 0x01020304, 0, 0, 0, 0⟩ = some [
      (0xC0, false), (0xC0, false), (0xC0, false), (0xC0, false), (0xC0, false), (0xC0, false), (0xF0, false), (0xC0, false),
      (0xC0, false), (0xC0, false), (0xC0, false), (0xC0, false), (0xC0, false), (0xC0, false), (0xC0, false), (0xF0, false),
      (0xC0, false), (0xC0, false), (0xC0, false), (0xC0, false), (0xC0, false), (0xC0, false), (0xF0, false), (0xF0, false),
      (0xC0, false), (0xC0, false), (0xC0, false), (0xC0, false), (0xC0, false), (0xF0, false), (0xC0, false), (0xC0, true)] := by decide

/-- The responses of ENC and ENCL are zeros (R45), and an illegal word with OPC 0x50 emits nothing (section 2.8). -/
theorem test_encoder_responses :
    answerTo ⟨0x00000050, 0xAA00FF33, 0, 0, 0, 0⟩ = some [⟨.ok, 0, 0, 0, 0⟩] ∧
      answerTo ⟨0x00000051, 0x01020304, 0, 0, 0, 0⟩ = some [⟨.ok, 0, 0, 0, 0⟩] ∧
      bytesOf ⟨0x00000150, 0xAA00FF33, 0, 0, 0, 0⟩ = some [] := by decide

/-- Each row's word runs as the first command after reset, placed as the host places it (log 6). -/
theorem test_rows_run : (tableRows.all fun r =>
    (nextOf (step (State.reset.withFetchWord 32 r.word.toNat))).isSome) = true := by decide

/-- Admission at the smallest depths (section 2.9): with OQ_DEPTH = 32 one entry in OQ is too many, with 33 it is not. -/
theorem test_admission : fits 0 0 = true ∧ fits 1 0 = false ∧ fits 1 1 = true ∧ fits 32 0 = false := by decide

/-- Corner cases of section 2.4: one unit below f32(1/255), f32(1/255), one unit below 1.0, -0.0, and both infinities. -/
theorem test_tobyte_corners :
    tobyte 0x3B808080 = 0 ∧ tobyte 0x3B808081 = 1 ∧ tobyte 0x3F7FFFFF = 254 ∧ tobyte 0x80000000 = 0 ∧
      tobyte 0x7F800000 = 255 ∧ tobyte 0xFF800000 = 0 := by decide

/-- The largest finite value, whose product overflows to infinity, and its negative (section 2.4). -/
theorem test_tobyte_overflow : tobyte 0x7F7FFFFF = 255 ∧ tobyte 0xFF7FFFFF = 0 := by decide +kernel

/-- The deliveries (R26, R27): the host takes the oldest response, the downstream the oldest byte. -/
theorem test_deliveries :
    (nextOf (deliverResponse { State.reset with rq := [okLed 1, okLed 2] })).map (fun t => (t.rq, t.delivered))
      = some ([okLed 2], [okLed 1]) ∧
    (nextOf (deliverByte { State.reset with oq := [⟨0xF0, false⟩, ⟨0xC0, true⟩] })).map (fun t => (t.oq, t.sent))
      = some ([⟨0xC0, true⟩], [⟨0xF0, false⟩]) := by decide

/-- Reset discards what waits and keeps what the downstream has (R113, R114). -/
theorem test_reset :
    (nextOf (resetBlock { State.reset with
      pins := ⟨true, true, true⟩, rq := [okZero], oq := [⟨0xF0, false⟩], sent := [⟨0xC0, false⟩] })).map
        (fun t => (t.rq, t.oq, t.stale)) = some ([], [], [⟨0xC0, false⟩]) := by decide

/-- Frames end at last = 1 alone (R87). -/
theorem test_frames : splitFrames [⟨0xF0, false⟩, ⟨0xC0, true⟩, ⟨0xF0, true⟩, ⟨0xC0, false⟩]
    = ([[⟨0xF0, false⟩, ⟨0xC0, true⟩], [⟨0xF0, true⟩]], [⟨0xC0, false⟩]) := by decide

/-- A byte on the line (R90), and the periods of 80 µs at 6.4 MHz (R92, R94). -/
theorem test_line : symbolLevels 0xC0 = [true, true, false, false, false, false, false, false] ∧
    latchPeriods Config.fBitNominal Config.tLatchNominal = 512 := by
  refine ⟨by decide, ?_⟩
  norm_num [latchPeriods, Config.fBitNominal, Config.tLatchNominal]

/-! ### Witnesses: for each statement with hypotheses, a state and operands that meet them together -/

theorem open_reset : Open State.reset := ⟨rfl, by simp [Config.rqDepth]⟩

theorem oqOpen_reset : OqOpen State.reset := by simp [OqOpen, Config.oqDepth]

/-- A block whose OQ is full and whose RQ is empty. -/
def bytesFull : State := { State.reset with oq := List.replicate Config.oqDepth ⟨0xC0, false⟩ }

/-- A block whose RQ is full. -/
def responsesFull : State := { State.reset with rq := List.replicate Config.rqDepth okZero }

theorem open_bytesFull : Open bytesFull := ⟨rfl, by simp [bytesFull, Config.rqDepth]⟩

theorem not_oqOpen_bytesFull : ¬ OqOpen bytesFull := by simp [OqOpen, bytesFull]

/-- NOP as a beat, and the state after it. -/
def nopBeat : Beat := ⟨0, 0, 0, 0, 0, 0⟩

/-- A plan and offers for the block right after reset. -/
def planned (ts : List Turn) (bs : List Beat) : State := { State.reset with turns := ts, offers := bs }

theorem nop_outputs : outputsOf nopBeat = ([okZero], []) := rfl

/-- The block with NOP accepted and answered, one response waiting and one received. -/
def answeredTwice : State :=
  { State.reset with accepted := [nopBeat, nopBeat], delivered := [okZero], rq := [okZero] }

theorem answeredTwice_inv : QueueInv answeredTwice :=
  ⟨by simp [answeredTwice, Config.rqDepth], by simp [answeredTwice], rfl, rfl⟩

/-- The block after ENCL of the zero Led, all its bytes received. -/
def encodedOnce : State :=
  { State.reset with
    accepted := [⟨0x51, 0, 0, 0, 0, 0⟩], delivered := [okZero], sent := enclBeats 0 }

theorem encodedOnce_inv : QueueInv encodedOnce :=
  ⟨by simp [encodedOnce], by simp [encodedOnce], rfl, rfl⟩

theorem witness_DecodeFollowsMaskAndMatch :
    (⟨"ADD.S", 0xFFFF00FF#32, 0x00000020#32⟩ : TableRow) ∈ tableRows := by simp [tableRows, plainRows, scalarRows]

theorem witness_EncodeIsTheCanonicalBeat :
    decode ⟨0x10, 1, 2, 0, 0, 0⟩ = .legal (.addL 1 2) ∧ Beat.canonical ⟨0x10, 1, 2, 0, 0, 0⟩ = true := by decide

/-- Each clause of Malformed, at a boundary. -/
theorem witness_MalformedWordIsAnsweredIll :
    Malformed 0x00010020 ∧ Malformed 0xFF ∧ Malformed 0x03 ∧ Malformed 0x0100 ∧ Open State.reset :=
  ⟨by decide, by decide, by decide, by decide, open_reset⟩

theorem witness_IllExactlyForMalformedWords :
    acceptBeat nopBeat State.reset = .next (State.reset.push okZero []) ∧ ¬ Malformed nopBeat.cmd ∧
      acceptBeat ⟨0x43, 0, 0, 0, 0, 0⟩ State.reset = .next (State.reset.push illResponse []) ∧ Malformed 0x43 :=
  ⟨rfl, by decide, rfl, by decide⟩

theorem witness_UnreadFieldsHaveNoEffect :
    let b : Beat := ⟨0x30, 1, 2, 3, 4, 5⟩
    let c : Beat := ⟨0x30, 1, 7, 3, 8, 9⟩
    b.cmd = c.cmd ∧ (b.opcIn opcsReadingA = true → b.a = c.a) ∧ (b.opcIn opcsReadingB = true → b.b = c.b) ∧
      (b.opcIn opcsReadingF0 = true → b.f0 = c.f0) ∧
      (b.opcIn opcsReadingF12 = true → b.f1 = c.f1 ∧ b.f2 = c.f2) := by decide

theorem witness_StepRunsTheDecodedInstruction :
    (planned [.accept] [nopBeat]).hosts ≤ 1 ∧ (planned [.accept] [nopBeat]).turns = .accept :: [] ∧
      (planned [.accept] [nopBeat]).offers = nopBeat :: [] ∧ decode nopBeat = .legal .nop ∧
      decode ⟨0x43, 0, 0, 0, 0, 0⟩ = .ill .reservedOpc := by decide

theorem witness_NopAnswersOk : (Beat.mk 0x00 0xFF00FF01 0x02FF0003 0x3F000000 0x3F800000 0x7FC00000).cmd = 0x00#32 ∧
    Open State.reset ∧ (256#32).toNat % 256 = 0 ∧ 256#32 ≠ 0 := ⟨rfl, open_reset, by decide, by decide⟩

theorem witness_LdlAnswersTheLed : (Beat.mk 0x01 0xFF00FF01 0x02FF0003 0x3F000000 0x3F800000 0x7FC00000).cmd = 0x01#32 ∧
    Open State.reset := ⟨rfl, open_reset⟩

theorem witness_Ldl3ClearsWhite : (Beat.mk 0x02 0xFF00FF01 0x02FF0003 0x3F000000 0x3F800000 0x7FC00000).cmd = 0x02#32 ∧
    Open State.reset := ⟨rfl, open_reset⟩

theorem witness_AddLedSaturates : (Beat.mk 0x10 0xFF00FF01 0x02FF0003 0x3F000000 0x3F800000 0x7FC00000).cmd = 0x10#32 ∧
    Open State.reset := ⟨rfl, open_reset⟩

theorem witness_SubLedSaturates : (Beat.mk 0x11 0xFF00FF01 0x02FF0003 0x3F000000 0x3F800000 0x7FC00000).cmd = 0x11#32 ∧
    Open State.reset := ⟨rfl, open_reset⟩

theorem witness_MulLedSaturates : (Beat.mk 0x12 0xFF00FF01 0x02FF0003 0x3F000000 0x3F800000 0x7FC00000).cmd = 0x12#32 ∧
    Open State.reset := ⟨rfl, open_reset⟩

theorem witness_DivLedTruncatesAndZeroes : (Beat.mk 0x13 0xFF00FF01 0x02FF0003 0x3F000000 0x3F800000 0x7FC00000).cmd = 0x13#32 ∧
    Open State.reset := ⟨rfl, open_reset⟩

theorem witness_AddFactorConvertsThenAdds : (Beat.mk 0x30 0xFF00FF01 0x02FF0003 0x3F000000 0x3F800000 0x7FC00000).cmd = 0x30#32 ∧
    Open State.reset := ⟨rfl, open_reset⟩

theorem witness_SubFactorConvertsThenSubtracts : (Beat.mk 0x31 0xFF00FF01 0x02FF0003 0x3F000000 0x3F800000 0x7FC00000).cmd = 0x31#32 ∧
    Open State.reset := ⟨rfl, open_reset⟩

theorem witness_MulFactorConvertsThenMultiplies : (Beat.mk 0x32 0xFF00FF01 0x02FF0003 0x3F000000 0x3F800000 0x7FC00000).cmd = 0x32#32 ∧
    Open State.reset := ⟨rfl, open_reset⟩

theorem witness_DivFactorConvertsThenDivides : (Beat.mk 0x33 0xFF00FF01 0x02FF0003 0x3F000000 0x3F800000 0x7FC00000).cmd = 0x33#32 ∧
    Open State.reset := ⟨rfl, open_reset⟩

theorem witness_LedToFloatsRoundsEachChannel : (Beat.mk 0x40 0xFF00FF01 0x02FF0003 0x3F000000 0x3F800000 0x7FC00000).cmd = 0x40#32 ∧
    Open State.reset := ⟨rfl, open_reset⟩

theorem witness_FloatsToLedConvertsEachComponent : (Beat.mk 0x41 0xFF00FF01 0x02FF0003 0x3F000000 0x3F800000 0x7FC00000).cmd = 0x41#32 ∧
    Open State.reset := ⟨rfl, open_reset⟩

theorem witness_FactorToScalarBroadcasts : (Beat.mk 0x42 0xFF00FF01 0x02FF0003 0x3F000000 0x3F800000 0x7FC00000).cmd = 0x42#32 ∧
    Open State.reset := ⟨rfl, open_reset⟩

theorem witness_AddScalarSaturates : (Beat.mk 0xFF20 0xFF00FF01 0 0 0 0).cmd.toNat = 0x20 + 256 * (0xFF#8).toNat ∧
    Open State.reset := ⟨rfl, open_reset⟩

theorem witness_SubScalarSaturates : (Beat.mk 0xFF21 0xFF00FF01 0 0 0 0).cmd.toNat = 0x21 + 256 * (0xFF#8).toNat ∧
    Open State.reset := ⟨rfl, open_reset⟩

theorem witness_MulScalarSaturates : (Beat.mk 0xFF22 0xFF00FF01 0 0 0 0).cmd.toNat = 0x22 + 256 * (0xFF#8).toNat ∧
    Open State.reset := ⟨rfl, open_reset⟩

theorem witness_DivScalarTruncatesAndZeroes : (Beat.mk 0x0023 0xFF00FF01 0 0 0 0).cmd.toNat = 0x23 + 256 * (0x00#8).toNat ∧
    Open State.reset := ⟨rfl, open_reset⟩

theorem witness_EncEmitsThirtyTwoBytes : (Beat.mk 0x50 0xFF00FF01 0 0 0 0).cmd = 0x50#32 ∧ Open State.reset ∧ OqOpen State.reset ∧
    Open bytesFull ∧ ¬ OqOpen bytesFull := ⟨rfl, open_reset, oqOpen_reset, open_bytesFull, not_oqOpen_bytesFull⟩

theorem witness_EnclMarksTheLastByte : (Beat.mk 0x51 0xFF00FF01 0 0 0 0).cmd = 0x51#32 ∧ Open State.reset ∧ OqOpen State.reset ∧
    Open bytesFull ∧ ¬ OqOpen bytesFull := ⟨rfl, open_reset, oqOpen_reset, open_bytesFull, not_oqOpen_bytesFull⟩

theorem witness_RoundingIsNearestTiesToEven : 0 < 255 ∧ 0 < 2 ^ 149 := by decide

theorem witness_ToFloatIsNearestAndIncreasing : (254#8).toNat < (255#8).toNat := by decide

/-- NaN, an infinity of each sign, and a finite value. -/
theorem witness_ToByteClampsTheRoundedProduct :
    f32IsNaN 0x7F800001 = true ∧ (f32IsNaN 0xFF800000 = false ∧ f32IsInf 0xFF800000 = true) ∧
      f32IsNaN 0x3F7FFFFF = false ∧ f32IsInf 0x3F7FFFFF = false := by decide

theorem witness_ToByteEqualsTheExactFloor : f32IsNaN 0x00000001 = false ∧ f32IsNaN 0x7F7FFFFF = false := by decide

theorem witness_ChannelRoundTrip : ∃ t, exec (.cvtL2F 0x017F80FF) State.reset = .next t := ⟨_, rfl⟩

/-- NOP is accepted, and ENC of a block without space in OQ is not. -/
theorem witness_AcceptEnabledExactlyWhenRoom :
    (planned [.accept] [nopBeat]).hosts ≤ 1 ∧ (planned [.accept] [nopBeat]).turns = .accept :: [] ∧
      (planned [.accept] [nopBeat]).offers = nopBeat :: [] ∧ (∃ t, step (planned [.accept] [nopBeat]) = .next t) ∧
      decode ⟨0x50, 0, 0, 0, 0, 0⟩ = .legal (.enc 0) := ⟨by decide, rfl, rfl, ⟨_, rfl⟩, by decide⟩

theorem witness_FullResponseQueueBlocksEveryCommand :
    responsesFull.pins.rst = false ∧ Config.rqDepth ≤ responsesFull.rq.length := ⟨rfl, by simp [responsesFull]⟩

theorem witness_OnlyEncoderCommandsWaitForBytes :
    Open bytesFull ∧ ¬ OqOpen bytesFull ∧ isEncoder ⟨0x50, 0, 0, 0, 0, 0⟩ = true ∧ isEncoder ⟨0x150, 0, 0, 0, 0, 0⟩ = false :=
  ⟨open_bytesFull, not_oqOpen_bytesFull, by decide, by decide⟩

theorem witness_RespondDeliversTheHead :
    let s := { answeredTwice with turns := [.respond] }
    s.hosts ≤ 1 ∧ s.turns = .respond :: [] ∧ s.pins.rst = false ∧ (∃ t, step s = .next t) ∧
      step (planned [.respond] []) = .fault .rqEmpty := ⟨by decide, rfl, rfl, ⟨_, rfl⟩, rfl⟩

theorem witness_EmitDeliversTheHead :
    let s := { State.reset with turns := [.emit], oq := [⟨0xF0, true⟩] }
    s.hosts ≤ 1 ∧ s.turns = .emit :: [] ∧ s.pins.rst = false ∧ (∃ t, step s = .next t) ∧
      step (planned [.emit] []) = .fault .oqEmpty := ⟨by decide, rfl, rfl, ⟨_, rfl⟩, rfl⟩

theorem witness_ResetEmptiesBothQueues :
    let s := { answeredTwice with turns := [.reset], pins := ⟨true, false, false⟩ }
    s.hosts ≤ 1 ∧ s.turns = .reset :: [] ∧ s.pins.rst = true := by decide

theorem witness_ResetLeavesThePartialFrame :
    let s := { encodedOnce with turns := [.reset], pins := ⟨true, true, true⟩ }
    s.turns = .reset :: [] ∧ ∃ t, step s = .next t := ⟨rfl, _, rfl⟩

theorem witness_NothingMovesDuringReset :
    let s := { answeredTwice with turns := [.respond], pins := ⟨true, true, true⟩ }
    s.pins.rst = true ∧ s.turns = .respond :: [] ∧ Turn.respond ∈ [Turn.accept, .respond, .emit] := by decide

theorem witness_ResetValues :
    let s := planned [] [⟨0x50, 0, 0, 0, 0, 0⟩]
    s.rq = [] ∧ s.oq = [] ∧ s.pins.rst = false := by decide

theorem witness_PayloadIsTheHeadEntry :
    answeredTwice.pins.rst = false ∧ answeredTwice.rq = okZero :: [] ∧ answeredTwice.oq = [] ∧
      (State.push State.reset okZero [⟨0xF0, false⟩]).oq = ⟨0xF0, false⟩ :: [] ∧ State.reset.rq = [] := by decide

theorem witness_DrivingPinsChangesOnlyPins :
    (planned [.drive ⟨true, false, true⟩] []).hosts ≤ 1 ∧
      (planned [.drive ⟨true, false, true⟩] []).turns = .drive ⟨true, false, true⟩ :: [] := by decide

/-- Two hosts: the step is refused with a plan and without one, and so is every turn, even one that would only drive the pins. Runs with one host exist:
witness_DrainDeliversEverything_fair. -/
theorem witness_SecondHostIsRefused :
    let s := { planned [.drive ⟨false, true, true⟩] [nopBeat] with hosts := 2 }
    1 < s.hosts ∧ step s = .refused .secondHost ∧ step { s with turns := [] } = .refused .secondHost ∧
      takeTurn (.drive ⟨false, true, true⟩) s = .next s ∧ ¬ Takes (.drive ⟨false, true, true⟩) s s :=
  ⟨by decide, rfl, rfl, rfl, fun h => absurd h.1 (by decide)⟩

theorem witness_OutputsDependOnTheBeatAlone : ∃ t, acceptBeat ⟨0x50, 0xAA00FF33, 0, 0, 0, 0⟩ State.reset = .next t := ⟨_, rfl⟩

theorem witness_QueueInvKeptByEveryStep :
    let s := { answeredTwice with turns := [.respond] }
    QueueInv s ∧ ∃ t, step s = .next t :=
  ⟨⟨answeredTwice_inv.1, answeredTwice_inv.2, answeredTwice_inv.3, answeredTwice_inv.4⟩, _, rfl⟩

theorem witness_KthResponseAnswersKthCommand : QueueInv answeredTwice ∧ answeredTwice.delivered[0]? = some okZero :=
  ⟨answeredTwice_inv, rfl⟩

theorem witness_BytesStandInCommandOrder :
    QueueInv encodedOnce ∧ (⟨0x51, 0, 0, 0, 0, 0⟩ : Beat) ∈ encodedOnce.accepted := ⟨encodedOnce_inv, by decide⟩

theorem witness_OnlyTwoSymbolsOnTheStream :
    QueueInv encodedOnce ∧ (⟨0xC0, true⟩ : EncBeat) ∈ encodedOnce.sent ++ encodedOnce.oq :=
  ⟨encodedOnce_inv, by decide⟩

theorem witness_EnabledStepsCommute :
    let s := { answeredTwice with oq := [⟨0xF0, false⟩] }
    Turn.respond ∈ [Turn.accept, .respond, .emit] ∧ Turn.emit ∈ [Turn.accept, .respond, .emit] ∧ Turn.respond ≠ .emit ∧
      (∃ t, step { s with turns := [.respond, .emit] } = .next t) ∧
      ∃ u, step { s with turns := [.emit, .respond] } = .next u :=
  ⟨by decide, by decide, by decide, ⟨_, rfl⟩, _, rfl⟩

theorem witness_DrainDeliversEverything :
    let s := { answeredTwice with oq := [⟨0xF0, false⟩], turns := [.respond, .emit, .accept] }
    s.hosts ≤ 1 ∧ s.pins = ⟨false, true, true⟩ ∧
      s.turns = List.replicate s.rq.length .respond ++ (List.replicate s.oq.length .emit ++ [.accept]) := by decide

/-- One response and one byte wait, and the host offers nothing more. -/
def waitingOne : State := { answeredTwice with oq := [⟨0xF0, false⟩] }

/-- An endless run from there: the response is taken, then the byte, and from then on the pins stay as they are. -/
def fairStates : Nat → State
  | 0 => waitingOne
  | 1 => waitingOne.popResponse okZero []
  | _ + 2 => (waitingOne.popResponse okZero []).popByte ⟨0xF0, false⟩ []

/-- Its turns. -/
def fairTurns : Nat → Turn
  | 0 => .respond
  | 1 => .emit
  | _ + 2 => .drive ⟨false, true, true⟩

/-- The clause about fair runs. -/
theorem witness_DrainDeliversEverything_fair :
    IsRun fairStates fairTurns ∧ WeaklyFair .respond fairStates fairTurns ∧ WeaklyFair .emit fairStates fairTurns ∧
      (∀ m, 0 ≤ m → (fairStates m).pins = ⟨false, true, true⟩) ∧ (fairStates 0).offers = [] := by
  refine ⟨?_, ?_, ?_, ?_, rfl⟩
  · intro n
    match n with
    | 0 => exact ⟨by decide, rfl⟩
    | 1 => exact ⟨by decide, rfl⟩
    | _ + 2 => exact ⟨(by decide : waitingOne.hosts ≤ 1), rfl⟩
  · intro n h
    obtain ⟨t, ht⟩ := h (n + 2) (by omega)
    exact absurd ht.2 (by rintro ⟨⟩)
  · intro n h
    obtain ⟨t, ht⟩ := h (n + 2) (by omega)
    exact absurd ht.2 (by rintro ⟨⟩)
  · intro m _
    match m with
    | 0 => rfl
    | 1 => rfl
    | _ + 2 => rfl

/-- The clause about the end of a run: with nothing offered and nothing waiting it is over, and with a beat offered it is not. -/
theorem witness_DrainDeliversEverything_end :
    State.reset.hosts ≤ 1 ∧ State.reset.turns = [] ∧ EndOfRun State.reset ∧
      step State.reset = .fault .runEnded ∧ step (planned [] [nopBeat]) = .fault .noTurn :=
  ⟨by decide, rfl, ⟨rfl, rfl, rfl⟩, rfl, rfl⟩

theorem witness_PseudoInstructionsAnswerTheirLed : Open State.reset := open_reset

theorem witness_EveryFrameLeavesTheLineLow :
    QueueInv encodedOnce ∧ enclBeats 0 ∈ (splitFrames encodedOnce.sent).1 := ⟨encodedOnce_inv, by decide⟩

theorem witness_ConformingGapsLastTLatch :
    0 < Config.fBitNominal ∧
      ConformingLine Config.fBitNominal Config.tLatchNominal [enclBeats 0] (lineLevels [(512, enclBeats 0)] 0) := by
  refine ⟨by norm_num [Config.fBitNominal], [(512, enclBeats 0)], 0, rfl, ?_, rfl⟩
  simp [test_line.2]

/-- A clock and an interval that are no whole numbers: half a second at 2.5 Hz is 1.25 periods, so a gap needs two (log 12, log 18). -/
theorem test_latch_fractional : latchPeriods (5 / 2) (1 / 2) = 2 := by norm_num [latchPeriods]

theorem witness_SymbolTimesAtTheNominalClock : enclBeats 0 ∈ [encBeats 0, enclBeats 0] := by simp

end Sys2Proof.Tests
end

section
/-! PROOF. Rounding to binary32 (R10), for O29. Distances are measured in units of 2^-149 and relative to the sign of the number rounded, so that
the number is not negative and every finite binary32 value is a whole number. The value chosen is `q * 2 ^ k`, with q within one half of the exact
quotient; every other value is a multiple of `2 ^ k`, or lies below the least significand with k excess bits. -/

namespace Sys2Proof.Machine

/-! ### The exact number in units, its excess and its significand -/

/-- The number num / den in units of 2^-149, not rounded. -/
def exactUnits (num den : Nat) : ℚ := (num : ℚ) / den * 2 ^ 149

/-- The excess bits that `rneMagnitude` takes for num / den. -/
def rneExcess (num den : Nat) : Nat := excessBits (num * 2 ^ 149 / den)

/-- The significand that `rneMagnitude` takes for num / den, before the bound at infinity. -/
def rneSignificand (num den : Nat) : Nat := roundDiv (num * 2 ^ 149) (den * 2 ^ rneExcess num den)

theorem rneMagnitude_eq (num den : Nat) :
    rneMagnitude num den = min (rneExcess num den * 2 ^ 23 + rneSignificand num den) 0x7F800000 := rfl

/-- The threshold 2^128 - 2^103 in units lies half a step below the significand 2^24 with 253 excess bits. -/
theorem threshold_le_iff_exactUnits (num den : Nat) :
    (2 ^ 128 - 2 ^ 103 ≤ (num : ℚ) / den) ↔ (2 ^ 24 - 1 / 2) * 2 ^ 253 ≤ exactUnits num den := by
  rw [exactUnits, show ((2 : ℚ) ^ 24 - 1 / 2) * 2 ^ 253 = (2 ^ 128 - 2 ^ 103) * 2 ^ 149 by norm_num]
  exact (mul_le_mul_iff_left₀ (by positivity)).symm

theorem abs_mul_sub (a b : ℚ) {c : ℚ} (hc : 0 < c) : |a * c - b| = |a - b / c| * c := by
  rw [← abs_of_pos hc, ← abs_mul, abs_of_pos hc, sub_mul, div_mul_cancel₀ _ hc.ne']

/-- `roundDiv_spec` on the rational quotient: at most one half away, and even where it is one half. -/
theorem roundDiv_near (n d : Nat) (hd : 0 < d) :
    |(roundDiv n d : ℚ) - n / d| ≤ 1 / 2 ∧ (|(roundDiv n d : ℚ) - n / d| = 1 / 2 → roundDiv n d % 2 = 0) := by
  obtain ⟨hlow, hhigh, heven⟩ := roundDiv_spec n d hd
  generalize roundDiv n d = q at *
  have hd' : (0 : ℚ) < d := by exact_mod_cast hd
  have hn : (n : ℚ) = n / d * d := by field_simp
  generalize (n : ℚ) / d = y at *
  have hlow' : 2 * (y * d) ≤ 2 * ((q : ℚ) * d) + d := by rw [← hn]; exact_mod_cast hlow
  have hhigh' : 2 * ((q : ℚ) * d) ≤ 2 * (y * d) + d := by rw [← hn]; exact_mod_cast hhigh
  refine ⟨abs_le.2 ⟨?_, ?_⟩, fun htie => heven ?_⟩
  · nlinarith
  · nlinarith
  · rcases (abs_eq (by norm_num)).1 htie with h | h
    · right
      have : 2 * ((q : ℚ) * d) = 2 * n + d := by rw [hn, sub_eq_iff_eq_add.1 h]; ring
      exact_mod_cast this
    · left
      have : 2 * (n : ℚ) = 2 * (q * d) + d := by rw [hn, sub_eq_iff_eq_add.1 h]; ring
      exact_mod_cast this

section
variable {num den : Nat} (hden : 0 < den)
include hden

theorem le_exactUnits_iff (m : Nat) : (m : ℚ) ≤ exactUnits num den ↔ m ≤ num * 2 ^ 149 / den := by
  have hd : (0 : ℚ) < den := by exact_mod_cast hden
  rw [Nat.le_div_iff_mul_le hden, exactUnits, div_mul_eq_mul_div, le_div_iff₀ hd]
  exact_mod_cast Iff.rfl

/-- The exact number lies below the significand 2^24, which needs 25 bits. -/
theorem exactUnits_lt : exactUnits num den < 2 ^ 24 * 2 ^ rneExcess num den := by
  have h := (excessBits_spec (num * 2 ^ 149 / den)).1
  rw [← pow_add, ← not_le]
  exact_mod_cast (le_exactUnits_iff hden (2 ^ (24 + rneExcess num den))).not.2 h.not_ge

/-- Where bits are dropped, the exact number reaches the least significand of 24 bits. -/
theorem le_exactUnits : rneExcess num den = 0 ∨ 2 ^ 23 * 2 ^ rneExcess num den ≤ exactUnits num den := by
  refine (excessBits_spec (num * 2 ^ 149 / den)).2.imp_right fun h => ?_
  rw [← pow_add]
  exact_mod_cast (le_exactUnits_iff hden _).2 h

/-- The significand is a nearest whole number to the exact quotient, and even in a tie. -/
theorem rneSignificand_near :
    |(rneSignificand num den : ℚ) - exactUnits num den / 2 ^ rneExcess num den| ≤ 1 / 2 ∧
      (|(rneSignificand num den : ℚ) - exactUnits num den / 2 ^ rneExcess num den| = 1 / 2 → rneSignificand num den % 2 = 0) := by
  have h := roundDiv_near (num * 2 ^ 149) (den * 2 ^ rneExcess num den) (by positivity)
  have hx : exactUnits num den / 2 ^ rneExcess num den = ((num * 2 ^ 149 : ℕ) : ℚ) / (den * 2 ^ rneExcess num den : ℕ) := by
    rw [exactUnits, div_mul_eq_mul_div, div_div]
    norm_cast
  rwa [hx]

theorem rneSignificand_le : rneSignificand num den ≤ 2 ^ 24 := by
  have hx := (div_lt_iff₀ (by positivity)).2 (exactUnits_lt (num := num) hden)
  have hq := (abs_le.1 (rneSignificand_near (num := num) hden).1).2
  have : (rneSignificand num den : ℚ) < (2 ^ 24 + 1 : ℕ) := by push_cast; linarith
  exact Nat.le_of_lt_succ (by exact_mod_cast this)

theorem le_rneSignificand : rneExcess num den = 0 ∨ 2 ^ 23 ≤ rneSignificand num den := by
  refine (le_exactUnits (num := num) hden).imp_right fun h => ?_
  have hx := (le_div_iff₀ (by positivity)).2 h
  have hq := (abs_le.1 (rneSignificand_near (num := num) hden).1).1
  have : ((2 ^ 23 : ℕ) : ℚ) < (rneSignificand num den + 1 : ℕ) := by push_cast; linarith
  exact Nat.le_of_lt_succ (by exact_mod_cast this)

/-! ### The threshold of infinity -/

/-- From the threshold on, the magnitude is infinity's: with 253 excess bits the tie goes up to the even significand 2^24. -/
theorem rneMagnitude_of_threshold (h : 2 ^ 128 - 2 ^ 103 ≤ (num : ℚ) / den) : rneMagnitude num den = 0x7F800000 := by
  rw [threshold_le_iff_exactUnits] at h
  have hlt := exactUnits_lt (num := num) hden
  have hsig := le_rneSignificand (num := num) hden
  obtain ⟨hnear, htie⟩ := rneSignificand_near (num := num) hden
  rw [rneMagnitude_eq, min_eq_right_iff]
  generalize rneExcess num den = k at *
  have hk : 253 ≤ k := by
    by_contra hk
    have : (2 : ℚ) ^ k ≤ 2 ^ 252 := pow_le_pow_right₀ (by norm_num) (by omega)
    linarith
  obtain rfl | hk := hk.eq_or_lt
  · rw [← le_div_iff₀ (by positivity)] at h
    generalize exactUnits num den / 2 ^ 253 = y at *
    generalize rneSignificand num den = q at *
    suffices 2 ^ 24 ≤ q by omega
    by_contra hq
    have hq' : (q : ℚ) ≤ 2 ^ 24 - 1 := by
      have : (q + 1 : ℚ) ≤ 2 ^ 24 := by exact_mod_cast not_le.1 hq
      linarith
    have hlow := (abs_le.1 hnear).1
    have hqe : (q + 1 : ℚ) = 2 ^ 24 := by linarith
    have hodd : q + 1 = 2 ^ 24 := by exact_mod_cast hqe
    have := htie (by rw [abs_of_nonpos (by linarith)]; linarith)
    omega
  · omega

/-- Below the threshold the magnitude is finite, so it is excess and significand as they are. -/
theorem rneMagnitude_of_lt_threshold (h : (num : ℚ) / den < 2 ^ 128 - 2 ^ 103) :
    rneExcess num den * 2 ^ 23 + rneSignificand num den < 0x7F800000 := by
  rw [← not_le, threshold_le_iff_exactUnits, not_le] at h
  have hle := le_exactUnits (num := num) hden
  have hsig := rneSignificand_le (num := num) hden
  have hnear := (abs_le.1 (rneSignificand_near (num := num) hden).1).2
  generalize rneExcess num den = k at *
  have hk : k ≤ 253 := by
    by_contra hk
    have : (2 : ℚ) ^ 254 ≤ 2 ^ k := pow_le_pow_right₀ (by norm_num) (by omega)
    have := hle.resolve_left (by omega)
    linarith
  obtain rfl | hk := hk.eq_or_lt
  · rw [← div_lt_iff₀ (by positivity)] at h
    have : (rneSignificand num den : ℚ) < (2 ^ 24 : ℕ) := by push_cast; linarith
    have : rneSignificand num den < 2 ^ 24 := by exact_mod_cast this
    omega
  · omega

end

/-! ### The bits of the result -/

theorem rne32_toNat (negative : Bool) (num den : Nat) :
    (rne32 negative num den).toNat = (if negative then 2 ^ 31 else 0) + rneMagnitude num den := by
  have h := rneMagnitude_le num den
  rw [rne32, BitVec.toNat_ofNat, Nat.mod_eq_of_lt]
  cases negative <;> simp <;> omega

/-- The sign is the one given. -/
theorem f32Sign_rne32 (negative : Bool) (num den : Nat) : f32Sign (rne32 negative num den) = negative := by
  have h := rneMagnitude_le num den
  rw [f32Sign_eq, rne32_toNat]
  cases negative <;> simp
  omega

theorem f32Exp_rne32 (negative : Bool) (num den : Nat) :
    f32Exp (rne32 negative num den) = rneMagnitude num den / 2 ^ 23 := by
  have h := rneMagnitude_le num den
  rw [f32Exp_eq, rne32_toNat]
  cases negative <;> simp <;> omega

theorem f32Frac_rne32 (negative : Bool) (num den : Nat) :
    f32Frac (rne32 negative num den) = rneMagnitude num den % 2 ^ 23 := by
  rw [f32Frac_eq, rne32_toNat]
  cases negative <;> simp
  omega

theorem rne32_getLsbD_zero (negative : Bool) (num den : Nat) :
    (rne32 negative num den).getLsbD 0 = decide (rneMagnitude num den % 2 = 1) := by
  rw [← BitVec.testBit_toNat, Nat.testBit_zero, rne32_toNat]
  cases negative <;> simp [Nat.add_mod]

/-! ### Finite values relative to a sign -/

/-- A finite value in units of 2^-149, counted positive where it has the sign given. -/
def relativeUnits (negative : Bool) (v : F32) : ℤ := if f32Sign v = negative then f32Units v else -f32Units v

theorem f32Value_eq (negative : Bool) (v : F32) :
    f32Value v = (if negative then -1 else 1) * ((relativeUnits negative v : ℚ) / 2 ^ 149) := by
  unfold f32Value relativeUnits
  cases negative <;> cases f32Sign v <;> simp <;> ring

/-- How far a finite value is from the number num / den with the sign given, in units. -/
def unitDistance (negative : Bool) (num den : Nat) (v : F32) : ℚ := |(relativeUnits negative v : ℚ) - exactUnits num den|

theorem abs_f32Value_sub (negative : Bool) (v : F32) (num den : Nat) :
    |f32Value v - (if negative then -1 else 1) * ((num : ℚ) / den)| =
      unitDistance negative num den v / 2 ^ 149 := by
  have hs : |(if negative then -1 else 1 : ℚ)| = 1 := by cases negative <;> simp
  rw [f32Value_eq negative, ← mul_sub, abs_mul, hs, one_mul, unitDistance, exactUnits, abs_sub_comm _ (_ * _), abs_mul_sub _ _ (by positivity),
    mul_div_cancel_right₀ _ (by positivity), abs_sub_comm]

/-- Every finite value is a multiple of 2^k units, or lies below the least significand of 24 bits with k excess bits. -/
theorem relativeUnits_multiple_or_lt (negative : Bool) (v : F32) (k : Nat) :
    (∃ j : ℤ, relativeUnits negative v = j * 2 ^ k) ∨ relativeUnits negative v < 2 ^ 23 * 2 ^ k := by
  obtain ⟨k', q, hunits, hq, -⟩ := f32Units_form v
  rcases Nat.lt_or_ge k' k with hk | hk
  · right
    have : f32Units v < 2 ^ 23 * 2 ^ k := by
      calc f32Units v < 2 ^ 24 * 2 ^ k' := by rw [hunits]; gcongr
        _ = 2 ^ 23 * 2 ^ (k' + 1) := by ring
        _ ≤ 2 ^ 23 * 2 ^ k := by gcongr <;> omega
    unfold relativeUnits
    zify at this
    split <;> omega
  · left
    have hdvd : (2 ^ k : ℤ) ∣ f32Units v := by
      rw [hunits]
      exact_mod_cast Dvd.dvd.mul_left (pow_dvd_pow 2 hk) q
    have : (2 ^ k : ℤ) ∣ relativeUnits negative v := by
      unfold relativeUnits
      split
      · exact hdvd
      · exact hdvd.neg_right
    exact this.imp fun j hj => by rw [hj, mul_comm]

/-! ### Nearest -/

/-- A multiple of a step within half a step of x is a nearest one, and another as near means a tie. -/
theorem nearest_multiple {x step : ℚ} (hstep : 0 < step) {q : ℤ} (hq : |q * step - x| ≤ step / 2) (j : ℤ) :
    |q * step - x| ≤ |j * step - x| ∧ (|q * step - x| = |j * step - x| → j ≠ q → |q * step - x| = step / 2) := by
  rcases eq_or_ne j q with rfl | hj
  · exact ⟨le_rfl, fun _ h => absurd rfl h⟩
  · have hgap : step ≤ |j * step - x| + |q * step - x| := by
      have h1 : (1 : ℚ) ≤ |(j : ℚ) - q| := by exact_mod_cast Int.one_le_abs (sub_ne_zero.2 hj)
      calc step ≤ |(j : ℚ) - q| * step := le_mul_of_one_le_left hstep.le h1
        _ = |(j * step - x) - (q * step - x)| := by rw [← abs_of_pos hstep, ← abs_mul, abs_of_pos hstep]; congr 1; ring
        _ ≤ _ := abs_sub _ _
    exact ⟨by linarith, fun h _ => by linarith⟩

/-- Among all finite values, a multiple of 2^k units within half a step of x is a nearest one if x has no fewer than k excess bits, and another
value as near means a tie. -/
theorem nearest_units {x : ℚ} {k : Nat} {q : ℤ} (hq : |q * 2 ^ k - x| ≤ 2 ^ k / 2) (hx : k = 0 ∨ 2 ^ 23 * 2 ^ k ≤ x)
    (negative : Bool) (v : F32) :
    |q * 2 ^ k - x| ≤ |relativeUnits negative v - x| ∧
      (|q * 2 ^ k - x| = |relativeUnits negative v - x| → relativeUnits negative v ≠ q * 2 ^ k →
        |q * 2 ^ k - x| = 2 ^ k / 2) := by
  have hmultiple : ∀ j : ℤ, _ := nearest_multiple (by positivity : (0 : ℚ) < 2 ^ k) hq
  obtain ⟨j, hj⟩ | hlt : (∃ j : ℤ, relativeUnits negative v = j * 2 ^ k) ∨ _ := relativeUnits_multiple_or_lt negative v k
  · rw [hj]
    push_cast
    exact ⟨(hmultiple j).1, fun heq hne => (hmultiple j).2 heq fun h => hne (by rw [h])⟩
  · obtain rfl | hx := hx
    · have := hmultiple (relativeUnits negative v)
      simp only [pow_zero, mul_one] at *
      exact this
    · have hlt' : (relativeUnits negative v : ℚ) < 2 ^ 23 * 2 ^ k := by exact_mod_cast hlt
      have hfloor := (hmultiple (2 ^ 23)).1
      rw [Int.cast_pow, Int.cast_ofNat, abs_of_nonpos (sub_nonpos.2 hx)] at hfloor
      rw [abs_of_neg (a := relativeUnits negative v - x) (by linarith)]
      exact ⟨by linarith, fun h => by linarith⟩

/-! ### O29 -/

section
variable {num den : Nat} (hden : 0 < den)
include hden

/-- From the threshold on, the result is the infinity with the sign given. -/
theorem rne32_infinite (negative : Bool) (h : 2 ^ 128 - 2 ^ 103 ≤ (num : ℚ) / den) :
    f32IsInf (rne32 negative num den) = true := by
  simp [f32IsInf, f32Exp_rne32, f32Frac_rne32, rneMagnitude_of_threshold hden h]

theorem rne32_finite (negative : Bool) (h : (num : ℚ) / den < 2 ^ 128 - 2 ^ 103) : F32Finite (rne32 negative num den) := by
  have hm := rneMagnitude_of_lt_threshold hden h
  rw [F32Finite, f32Exp_rne32, rneMagnitude_eq]
  omega

theorem relativeUnits_rne32 (negative : Bool) (h : (num : ℚ) / den < 2 ^ 128 - 2 ^ 103) :
    relativeUnits negative (rne32 negative num den) = rneSignificand num den * 2 ^ rneExcess num den := by
  have hm := rneMagnitude_of_lt_threshold hden h
  rw [relativeUnits, if_pos (f32Sign_rne32 ..), rne32, rneMagnitude_eq, min_eq_left hm.le,
    f32Units_of_magnitude negative _ _ (le_rneSignificand hden) (rneSignificand_le hden) hm]
  push_cast
  rfl

/-- Below the threshold, the result is a nearest finite value, and it is even where another one is as near. -/
theorem rne32_nearest (negative : Bool) (h : (num : ℚ) / den < 2 ^ 128 - 2 ^ 103) (v : F32) :
    unitDistance negative num den (rne32 negative num den) ≤ unitDistance negative num den v ∧
      (unitDistance negative num den (rne32 negative num den) = unitDistance negative num den v →
        relativeUnits negative v ≠ relativeUnits negative (rne32 negative num den) → (rne32 negative num den).getLsbD 0 = false) := by
  obtain ⟨hnear, heven⟩ := rneSignificand_near (num := num) hden
  have hm := rneMagnitude_of_lt_threshold hden h
  have hbit : rneSignificand num den % 2 = 0 → (rne32 negative num den).getLsbD 0 = false := by
    intro hq
    rw [rne32_getLsbD_zero, rneMagnitude_eq, min_eq_left hm.le, decide_eq_false_iff_not]
    omega
  have hscale : |((rneSignificand num den : ℤ) : ℚ) * 2 ^ rneExcess num den - exactUnits num den| =
      |(rneSignificand num den : ℚ) - exactUnits num den / 2 ^ rneExcess num den| * 2 ^ rneExcess num den := by
    rw [Int.cast_natCast, abs_mul_sub _ _ (by positivity)]
  have hpos : (0 : ℚ) < 2 ^ rneExcess num den := by positivity
  have hnearest := nearest_units (q := rneSignificand num den) (by rw [hscale]; nlinarith) (le_exactUnits hden) negative v
  rw [unitDistance, unitDistance, relativeUnits_rne32 hden negative h]
  push_cast at hnearest ⊢
  refine ⟨hnearest.1, fun heq hne => hbit (heven ?_)⟩
  have htie := hnearest.2 heq hne
  rw [Int.cast_natCast] at hscale
  exact mul_right_cancel₀ hpos.ne' (by linarith)

end

/-- Settles O29: below the threshold by `rne32_nearest`, in units; from the threshold on the magnitude is infinity's. -/
theorem roundingIsNearestTiesToEven : Obligations.RoundingIsNearestTiesToEven := by
  intro negative num den hden
  have hr : (0 : ℚ) ≤ (num : ℚ) / den := by positivity
  have habs : |(if negative then -1 else 1) * ((num : ℚ) / den)| = num / den := by
    cases negative <;> simp [abs_of_nonneg hr]
  unfold RoundsTo
  rw [habs]
  split
  next h =>
    refine ⟨rne32_infinite hden negative h, ?_⟩
    have hpos : (0 : ℚ) < (num : ℚ) / den := by linarith
    rw [f32Sign_rne32]
    cases negative
    · simpa using hr
    · simpa using hpos
  next h =>
    have h := not_le.1 h
    refine ⟨rne32_finite hden negative h, fun v _ => ?_⟩
    obtain ⟨hle, heven⟩ := rne32_nearest hden negative h v
    rw [abs_f32Value_sub, abs_f32Value_sub, div_le_div_iff_of_pos_right (by positivity), div_left_inj' (by positivity)]
    refine ⟨hle, fun heq hne => heven heq fun hsame => hne ?_⟩
    rw [f32Value_eq negative, f32Value_eq negative, hsame]

end Sys2Proof.Machine
end

section
/-! PROOF. The state family (10_state.md): the interchange sequences, the three steps of the block, the ports, and the queue invariant. First the facts
that every statement about acceptance rests on: an accepted beat is one commit of `outputsOf`, and a step is its turn. -/

namespace Sys2Proof.Machine

/-! ### What accepting a beat does, in terms of `outputsOf` -/

/-- Nothing holds back a command right after reset (R29). -/
theorem blockedBy_reset (encoder : Bool) : blockedBy encoder State.reset = none :=
  (blockedBy_none_iff _ _).2 ⟨⟨rfl, by simp [Config.rqDepth]⟩, fun _ => by simp [OqOpen, Config.oqDepth]⟩

/-- Accepting a beat is one commit of what it puts out right after reset, which is one response, and 32 bytes or none (R25, R28). -/
theorem acceptBeat_commits_outputsOf (b : Beat) : ∃ r, (outputsOf b).1 = [r] ∧
    (outputsOf b).2.length = (if isEncoder b then 32 else 0) ∧
    ∀ s, acceptBeat b s = commit (isEncoder b) r (outputsOf b).2 s := by
  obtain ⟨r, bs, hlen, hcommit⟩ := acceptBeat_is_commit b
  have hreset : acceptBeat b State.reset = .next (State.reset.push r bs) :=
    (hcommit _).trans (commit_admitted _ _ _ _ (blockedBy_reset _))
  have hout : outputsOf b = ([r], bs) := by simp [outputsOf, hreset]
  rw [hout]
  exact ⟨r, rfl, hlen, hcommit⟩

/-- A beat is accepted exactly when R25 admits it, and then the queues grow by `outputsOf`. -/
theorem acceptBeat_next_iff (b : Beat) (s t : State) :
    acceptBeat b s = .next t ↔ (Open s ∧ (isEncoder b = true → OqOpen s)) ∧
      t = { s with rq := s.rq ++ (outputsOf b).1, oq := s.oq ++ (outputsOf b).2 } := by
  obtain ⟨r, hr, -, hcommit⟩ := acceptBeat_commits_outputsOf b
  rw [hcommit, commit_next_iff, blockedBy_none_iff, hr, State.push]

/-- `isEncoder` is R25's reading of the decoder: ENC or ENCL. -/
theorem isEncoder_iff (b : Beat) :
    isEncoder b = true ↔ ∃ a, decode b = .legal (.enc a) ∨ decode b = .legal (.encl a) := by
  unfold isEncoder
  split <;> simp_all

/-- With a beat on the channel, `cmd_ready` is R25's admission of that beat. -/
theorem cmdReady_iff (s : State) (b : Beat) (bs : List Beat) (hoffers : s.offers = b :: bs) :
    cmdReady s = true ↔ Open s ∧ (isEncoder b = true → OqOpen s) := by
  rw [cmdReady, hoffers, Option.isNone_iff_eq_none, blockedBy_none_iff]

/-! ### What a step is, turn by turn -/

section
variable {s : State} {ts : List Turn} (hhosts : s.hosts ≤ 1)
include hhosts

/-- With one host, a step is the next turn of the plan (R24, R42). -/
theorem step_of_turn {turn : Turn} (hturns : s.turns = turn :: ts) : step s = takeTurn turn (s.nextTurn ts) := by
  simp [step, stepTurn, hturns, hhosts]

/-- With a beat offered, a step whose turn is Accept accepts it (R25). -/
theorem step_accept {b : Beat} {bs : List Beat} (hturns : s.turns = .accept :: ts) (hoffers : s.offers = b :: bs) :
    step s = acceptBeat b ((s.nextTurn ts).fetched b bs) := by
  rw [step_of_turn hhosts hturns, takeTurn, acceptOffer, State.nextTurn_offers, hoffers]

/-- A step whose turn is Accept is taken exactly when R25 admits the offered beat, and its whole effect. -/
theorem step_accept_next_iff {b : Beat} {bs : List Beat} (hturns : s.turns = .accept :: ts) (hoffers : s.offers = b :: bs)
    (t : State) : step s = .next t ↔ (Open s ∧ (isEncoder b = true → OqOpen s)) ∧
      t = { (s.nextTurn ts).fetched b bs with rq := s.rq ++ (outputsOf b).1, oq := s.oq ++ (outputsOf b).2 } := by
  rw [step_accept hhosts hturns hoffers]
  exact acceptBeat_next_iff b _ t

/-- Out of reset, a step whose turn is Respond is taken exactly when RQ has a head and the host is ready, and it delivers that head (R26). -/
theorem step_respond_next_iff (hturns : s.turns = .respond :: ts) (hrst : s.pins.rst = false) (t : State) :
    step s = .next t ↔ s.pins.rspReady = true ∧ ∃ r rest, s.rq = r :: rest ∧ t = (s.nextTurn ts).popResponse r rest := by
  rw [step_of_turn hhosts hturns, takeTurn, deliverResponse_next_iff]
  simp [hrst]

/-- Out of reset, a step whose turn is Emit is taken exactly when OQ has a head and the downstream is ready, and it delivers that head (R27). -/
theorem step_emit_next_iff (hturns : s.turns = .emit :: ts) (hrst : s.pins.rst = false) (t : State) :
    step s = .next t ↔ s.pins.encReady = true ∧ ∃ e rest, s.oq = e :: rest ∧ t = (s.nextTurn ts).popByte e rest := by
  rw [step_of_turn hhosts hturns, takeTurn, deliverByte_next_iff]
  simp [hrst]

end

/-- A delivery from a queue has a next state exactly when the queue has a head and the receiver is ready. -/
theorem exists_pop_iff {α : Type} (queue : List α) (ready : Prop) (pop : α → List α → State) :
    (∃ t, ready ∧ ∃ x rest, queue = x :: rest ∧ t = pop x rest) ↔ 0 < queue.length ∧ ready := by
  cases queue <;> simp

/-! ### The queue invariant: each operation keeps it -/

section
variable {s : State} (hinv : QueueInv s)
include hinv

theorem QueueInv.nextTurn (ts : List Turn) : QueueInv (s.nextTurn ts) :=
  ⟨hinv.rqBound, hinv.oqBound, hinv.responses, hinv.bytes⟩

theorem QueueInv.driven (p : Pins) : QueueInv (s.driven p) :=
  ⟨hinv.rqBound, hinv.oqBound, hinv.responses, hinv.bytes⟩

/-- The head entry moves from the front of RQ to the end of what was delivered. -/
theorem QueueInv.popResponse {r : Response} {rest : List Response} (hrq : s.rq = r :: rest) :
    QueueInv (s.popResponse r rest) where
  rqBound := by
    have h := hinv.rqBound
    rw [hrq, List.length_cons] at h
    exact Nat.le_of_succ_le h
  oqBound := hinv.oqBound
  responses := by simpa [hrq] using hinv.responses
  bytes := hinv.bytes

/-- The head entry moves from the front of OQ to the end of what was sent. -/
theorem QueueInv.popByte {e : EncBeat} {rest : List EncBeat} (hoq : s.oq = e :: rest) : QueueInv (s.popByte e rest) where
  rqBound := hinv.rqBound
  oqBound := by
    have h := hinv.oqBound
    rw [hoq, List.length_cons] at h
    exact Nat.le_of_succ_le h
  responses := hinv.responses
  bytes := by simpa [hoq] using hinv.bytes

/-- The admission of R25 leaves room for the response and for the bytes, and both histories grow by `outputsOf` of the accepted beat. -/
theorem QueueInv.accept {b : Beat} {rest : List Beat} {t : State}
    (haccept : acceptBeat b (s.fetched b rest) = .next t) : QueueInv t := by
  obtain ⟨⟨⟨-, hroom⟩, hoqRoom⟩, rfl⟩ := (acceptBeat_next_iff b _ t).1 haccept
  obtain ⟨r, hr, hlen, -⟩ := acceptBeat_commits_outputsOf b
  constructor
  case rqBound => simpa [hr] using hroom
  case oqBound =>
    simp only [State.fetched_oq, List.length_append, hlen]
    split
    next hencoder => exact hoqRoom hencoder
    next => exact hinv.oqBound
  case responses => simp [← List.append_assoc, hinv.responses]
  case bytes => simp [← List.append_assoc, hinv.bytes]

end

theorem QueueInv.cleared (s : State) : QueueInv s.cleared :=
  ⟨Nat.zero_le _, Nat.zero_le _, rfl, rfl⟩

/-- Every turn keeps the queue invariant (R18, R19, R34, R36 to R38). -/
theorem QueueInv.takeTurn {s t : State} {turn : Turn} (hinv : QueueInv s) (hturn : takeTurn turn s = .next t) : QueueInv t := by
  rcases takeTurn_next turn s t hturn with
    ⟨-, b, rest, -, haccept⟩ | ⟨-, r, rest, hrq, rfl⟩ | ⟨-, e, rest, hoq, rfl⟩ | ⟨-, rfl⟩ | ⟨p, -, rfl⟩
  · exact hinv.accept haccept
  · exact hinv.popResponse hrq
  · exact hinv.popByte hoq
  · exact .cleared s
  · exact hinv.driven p

/-! ### The statements -/

/-- Settles O49: a step is a turn on the state whose plan is one shorter, and every turn keeps the invariant. -/
theorem queueInvKeptByEveryStep : Obligations.QueueInvKeptByEveryStep := by
  intro s t hinv hstep
  obtain ⟨-, turn, rest, -, hturn⟩ := (step_next_iff s t).1 hstep
  exact (hinv.nextTurn rest).takeTurn hturn

/-- Settles O48: queues and history are empty. -/
theorem queueInvAtReset : Obligations.QueueInvAtReset :=
  ⟨Nat.zero_le _, Nat.zero_le _, rfl, rfl⟩

/-- Settles O34: the sequences are the channel fields of R13, and a Led is its four channels. -/
theorem interchangeRoundTrip : Obligations.InterchangeRoundTrip := by
  intro l
  obtain ⟨hR, hG, hB, hW⟩ := chan_led (ledR l) (ledG l) (ledB l) 0
  refine ⟨?_, ?_, ?_, led (ledR l) (ledG l) (ledB l) 0, rfl, hW, ?_⟩
  · simp [ser4, ledR_toNat, ledG_toNat, ledB_toNat, ledW_toNat]
  · simp [ser3, ledR_toNat, ledG_toNat, ledB_toNat]
  · simp [ser4, ledOfSeq]
  · intro k hk
    interval_cases k
    · rw [hR, ledR_toNat]
    · rw [hG, ledG_toNat]
    · rw [hB, ledB_toNat]

/-- Settles O35: `step_accept_next_iff`, with the condition on OQ read through `isEncoder_iff`. -/
theorem acceptEnabledExactlyWhenRoom : Obligations.AcceptEnabledExactlyWhenRoom := by
  intro s ts b bs hhosts hturns hoffers encoder
  have hencoder : isEncoder b = true ↔ encoder := isEncoder_iff b
  have hnext := step_accept_next_iff hhosts hturns hoffers
  have henabled : (∃ t, step s = .next t) ↔ Open s ∧ (isEncoder b = true → OqOpen s) := by
    simp [hnext]
  refine ⟨?_, ⟨?_, ?_⟩, ?_⟩
  · rw [henabled, hencoder, Open, OqOpen, and_assoc]
  · simp [cmdValid, hoffers]
  · rw [cmdReady_iff s b bs hoffers, henabled]
  · intro t ht
    obtain ⟨-, rfl⟩ := (hnext t).1 ht
    obtain ⟨r, hr, hlen, -⟩ := acceptBeat_commits_outputsOf b
    refine ⟨rfl, ⟨r, by rw [hr]⟩, (outputsOf b).2, rfl, fun h => ?_, fun h => ?_⟩
    · rw [hlen, if_pos (hencoder.2 h)]
    · rw [← List.length_eq_zero_iff, hlen, if_neg (mt hencoder.1 h)]

/-- Settles O36: a command, and every beat, is one commit, which a full RQ blocks. -/
theorem fullResponseQueueBlocksEveryCommand : Obligations.FullResponseQueueBlocksEveryCommand := by
  intro s hrst hfull
  have hblocked (encoder : Bool) := blockedBy_rqFull encoder s hrst hfull
  refine ⟨fun i => ?_, fun b => ?_⟩
  · obtain ⟨r, bs, -, -, hcommit⟩ := exec_is_commit i
    rw [hcommit, commit_blocked _ _ _ _ _ (hblocked _)]
  · obtain ⟨r, bs, -, hcommit⟩ := acceptBeat_is_commit b
    rw [hcommit, commit_blocked _ _ _ _ _ (hblocked _)]

/-- Settles O37: only an encoder command's commit looks at OQ, and any other beat's emits nothing. -/
theorem onlyEncoderCommandsWaitForBytes : Obligations.OnlyEncoderCommandsWaitForBytes := by
  intro s b hopen hfull
  obtain ⟨r, bs, hlen, hcommit⟩ := acceptBeat_is_commit b
  split
  next hencoder => rw [hcommit, hencoder, commit_blocked _ _ _ _ _ (blockedBy_oqFull s hopen hfull)]
  next hencoder =>
    rw [if_neg hencoder, List.length_eq_zero_iff] at hlen
    refine ⟨r, ?_⟩
    rw [hcommit, hlen, ← State.push_nil]
    exact commit_admitted _ _ _ _ ((blockedBy_none_iff _ s).2 ⟨hopen, fun h => absurd h hencoder⟩)

/-- Settles O38: Respond pops the head of RQ when there is one and the host is ready. -/
theorem respondDeliversTheHead : Obligations.RespondDeliversTheHead := by
  intro s ts hhosts hturns hrst
  have hnext := step_respond_next_iff hhosts hturns hrst
  refine ⟨?_, fun t ht => ?_⟩
  · simp only [hnext]
    exact exists_pop_iff s.rq _ _
  · obtain ⟨-, e, rest, hrq, rfl⟩ := (hnext t).1 ht
    exact ⟨e, rest, hrq, rfl⟩

/-- Settles O39: Emit pops the head of OQ when there is one and the downstream is ready. -/
theorem emitDeliversTheHead : Obligations.EmitDeliversTheHead := by
  intro s ts hhosts hturns hrst
  have hnext := step_emit_next_iff hhosts hturns hrst
  refine ⟨?_, fun t ht => ?_⟩
  · simp only [hnext]
    exact exists_pop_iff s.oq _ _
  · obtain ⟨-, e, rest, hoq, rfl⟩ := (hnext t).1 ht
    exact ⟨e, rest, hoq, rfl⟩

/-- Settles O47: the effect half of `acceptBeat_next_iff`. -/
theorem outputsDependOnTheBeatAlone : Obligations.OutputsDependOnTheBeatAlone :=
  fun b s t haccept => ((acceptBeat_next_iff b s t).1 haccept).2

/-- Settles O8: a step whose turn is Accept accepts the offered beat, and acceptance follows the decoder. -/
theorem stepRunsTheDecodedInstruction : Obligations.StepRunsTheDecodedInstruction := by
  intro s ts b bs hhosts hturns hoffers
  rw [step_accept hhosts hturns hoffers]
  refine ⟨fun i hlegal => ?_, fun why hill => ?_⟩
  · rw [acceptBeat, hlegal]
    rfl
  · rw [acceptBeat, hill]
    rfl

/-- Settles O43: empty queues have room at every depth, so nothing blocks a command out of reset. -/
theorem resetValues : Obligations.ResetValues := by
  refine ⟨rfl, rfl, rfl, rfl, fun s hrq hoq hrst => ?_⟩
  have hopen : Open s := ⟨hrst, by simp [hrq, Config.rqDepth]⟩
  have hoqOpen : OqOpen s := by simp [OqOpen, hoq, Config.oqDepth]
  have hadmitted (encoder : Bool) : blockedBy encoder s = none := (blockedBy_none_iff encoder s).2 ⟨hopen, fun _ => hoqOpen⟩
  cases hoffers : s.offers <;> simp [cmdReady, hoffers, hadmitted]

/-- Settles O44: valid is 1 exactly when the queue has a head. -/
theorem payloadIsTheHeadEntry : Obligations.PayloadIsTheHeadEntry := by
  intro s hrst
  refine ⟨fun r rest hrq => ?_, fun e rest hoq => ?_, fun hrq => ?_, fun hoq => ?_⟩
  · simp [rspPayload, rspValid, hrst, hrq]
  · simp [encPayload, encValid, hrst, hoq]
  · simp [rspPayload, rspValid, hrq]
  · simp [encPayload, encValid, hoq]

/-- Settles O45: the step is the drive turn, which always happens. -/
theorem drivingPinsChangesOnlyPins : Obligations.DrivingPinsChangesOnlyPins := by
  intro s p ts hhosts hturns
  rw [step_of_turn hhosts hturns]
  rfl

end Sys2Proof.Machine
end

section
/-! PROOF. The memory family (20_memory.md): what the queue invariant says of the order of responses (R36) and of bytes (R37, R38), and the refusal of a
second host (R42). -/

namespace Sys2Proof.Machine

/-! ### Order under the invariant -/

/-- Each beat has one answer, and the responses delivered and waiting are the accepted beats' answers, place by place (R36). -/
theorem QueueInv.responses_eq_map {s : State} (hinv : QueueInv s) :
    ∃ answer : Beat → Response, (∀ b, (outputsOf b).1 = [answer b]) ∧ s.delivered ++ s.rq = s.accepted.map answer := by
  choose answer hanswer _ using acceptBeat_commits_outputsOf
  refine ⟨answer, hanswer, ?_⟩
  rw [hinv.responses, List.map_eq_flatMap]
  simp only [hanswer]

/-- ENC and ENCL put out 32 bytes, every other beat none (R25, R85, R86). -/
theorem outputsOf_bytes_length (b : Beat) : (outputsOf b).2.length = if isEncoder b then 32 else 0 := by
  obtain ⟨-, -, hlen, -⟩ := acceptBeat_commits_outputsOf b
  exact hlen

/-- Settles O50: what was delivered is the front of the answers to the accepted beats. -/
theorem kthResponseAnswersKthCommand : Obligations.KthResponseAnswersKthCommand := by
  intro s k r hinv hk
  obtain ⟨answer, hanswer, hmap⟩ := hinv.responses_eq_map
  have hfront : (s.delivered ++ s.rq)[k]? = some r := by
    rw [List.getElem?_append_left (List.getElem?_eq_some_iff.1 hk).1, hk]
  rw [hmap, List.getElem?_map, Option.map_eq_some_iff] at hfront
  obtain ⟨b, hb, rfl⟩ := hfront
  exact ⟨b, hb, hanswer b⟩

/-- Settles O51: the bytes are those of all accepted beats in order, so those of the first n beats come first. -/
theorem bytesStandInCommandOrder : Obligations.BytesStandInCommandOrder := by
  intro s n hinv
  refine ⟨?_, fun b _ => outputsOf_bytes_length b⟩
  rw [hinv.bytes]
  exact (List.take_prefix n s.accepted).flatMap _

/-! ### One host -/

/-- With a second host a step is refused, whatever the plan (R42). -/
theorem step_secondHost {s : State} (hhosts : 1 < s.hosts) : step s = .refused .secondHost := if_pos hhosts

/-- Settles O46: the step, the turn and the endless run each need `hosts ≤ 1`. -/
theorem secondHostIsRefused : Obligations.SecondHostIsRefused := by
  intro s hhosts
  refine ⟨step_secondHost hhosts, fun turn t => not_takes_of_secondHost turn s t hhosts, ?_⟩
  rintro states turns n hrun rfl
  exact absurd hhosts (isRun_hosts_le hrun n).not_gt

end Sys2Proof.Machine
end

section
/-! PROOF. The encoding family (30_encoding.md): the decoder against the encoder, against the rows of the opcode table, and against the fields a command reads.
Three facts carry it: `decode_encode`; `encode_of_decode`, the beat of a decoded command is the decoded beat with its unread fields cleared; and
`decode_ill_iff_unselected`, a word is ILL exactly where no row selects it. -/

namespace Sys2Proof.Machine

/-! ### Decoding the assembler's beat -/

theorem decode_of_plainCommand {b : Beat} {i : Instr} (opc : Byte) (hcmd : b.cmd = commandWord opc 0)
    (hscalar : scalarCommand opc b = none) (hplain : plainCommand opc b = some i) : decode b = .legal i := by
  simp [decode_commandWord b opc 0 hcmd, hscalar, hplain]

theorem decode_of_scalarCommand {b : Beat} {i : Instr} (opc s : Byte) (hcmd : b.cmd = commandWord opc s)
    (hscalar : scalarCommand opc b = some i) : decode b = .legal i := by
  simp [decode_commandWord b opc s hcmd, hscalar]

/-- Each command's OPC leads the decoder back to it, and each operand stands in the field that the decoder reads it from (R43, R45 to R47). -/
theorem decode_encode (i : Instr) : decode (encode i) = .legal i := by
  cases i with
  | nop => exact decode_of_plainCommand 0x00 rfl rfl rfl
  | ldl a => exact decode_of_plainCommand 0x01 rfl rfl rfl
  | ldl3 a => exact decode_of_plainCommand 0x02 rfl rfl rfl
  | addL a b => exact decode_of_plainCommand 0x10 rfl rfl rfl
  | subL a b => exact decode_of_plainCommand 0x11 rfl rfl rfl
  | mulL a b => exact decode_of_plainCommand 0x12 rfl rfl rfl
  | divL a b => exact decode_of_plainCommand 0x13 rfl rfl rfl
  | addS a s => exact decode_of_scalarCommand 0x20 s rfl (by simp [encode, bareBeat, scalarCommand])
  | subS a s => exact decode_of_scalarCommand 0x21 s rfl (by simp [encode, bareBeat, scalarCommand])
  | mulS a s => exact decode_of_scalarCommand 0x22 s rfl (by simp [encode, bareBeat, scalarCommand])
  | divS a s => exact decode_of_scalarCommand 0x23 s rfl (by simp [encode, bareBeat, scalarCommand])
  | addF a f => exact decode_of_plainCommand 0x30 rfl rfl rfl
  | subF a f => exact decode_of_plainCommand 0x31 rfl rfl rfl
  | mulF a f => exact decode_of_plainCommand 0x32 rfl rfl rfl
  | divF a f => exact decode_of_plainCommand 0x33 rfl rfl rfl
  | cvtL2F a => exact decode_of_plainCommand 0x40 rfl rfl rfl
  | cvtF2L f0 f1 f2 => exact decode_of_plainCommand 0x41 rfl rfl rfl
  | cvtF2S f => exact decode_of_plainCommand 0x42 rfl rfl rfl
  | enc a => exact decode_of_plainCommand 0x50 rfl rfl rfl
  | encl a => exact decode_of_plainCommand 0x51 rfl rfl rfl

/-- Settles O1: `decode_encode`. -/
theorem decodeOfEncodeIsTheInstruction : Obligations.DecodeOfEncodeIsTheInstruction := decode_encode

/-! ### The fields a command reads -/

/-- The beat with every field cleared that the command of its OPC does not read (R45, R52). -/
def clearUnread (b : Beat) : Beat where
  cmd := b.cmd
  a := if b.opcIn opcsReadingA then b.a else 0
  b := if b.opcIn opcsReadingB then b.b else 0
  f0 := if b.opcIn opcsReadingF0 then b.f0 else 0
  f1 := if b.opcIn opcsReadingF12 then b.f1 else 0
  f2 := if b.opcIn opcsReadingF12 then b.f2 else 0

@[simp] theorem clearUnread_cmd (b : Beat) : (clearUnread b).cmd = b.cmd := rfl

/-- Canonical (R52) means well formed and with nothing to clear. -/
theorem canonical_iff (b : Beat) : b.canonical = true ↔ b.wellFormed = true ∧ clearUnread b = b := by
  obtain ⟨cmd, a, b, f0, f1, f2⟩ := b
  simp only [Beat.canonical, clearUnread, Beat.mk.injEq, Bool.and_eq_true, Bool.or_eq_true, beq_iff_eq, true_and, ite_eq_left_iff,
    BitVec.ofNat_eq_ofNat, eq_comm (a := 0#32), or_iff_not_imp_left, imp_and, and_assoc]

/-- A beat of known OPC reads the fields whose list has that OPC. -/
theorem opcIn_of_opc (b : Beat) (l : List Word) {opc : Byte} (hopc : opcOf b.cmd = opc) :
    b.opcIn l = l.contains (opc.setWidth 32) := by
  rw [Beat.opcIn, low_byte, hopc]

/-- Each command that needs no IMM8 takes its operands from the fields that R45 lists for its OPC. -/
theorem encode_of_plainCommand {b : Beat} {i : Instr} {opc : Byte} (hcmd : b.cmd = commandWord opc 0)
    (hplain : plainCommand opc b = some i) : encode i = clearUnread b := by
  have hread (l : List Word) : b.opcIn l = l.contains (opc.setWidth 32) := opcIn_of_opc b l (by simp [hcmd])
  unfold plainCommand at hplain
  split at hplain <;> cases hplain <;>
    simp [encode, bareBeat, clearUnread, hread, hcmd, opcsReadingA, opcsReadingB, opcsReadingF0, opcsReadingF12]

/-- The same for the four `.S` commands, which read IMM8 too. -/
theorem encode_of_scalarCommand {b : Beat} {i : Instr} {opc : Byte} (hcmd : b.cmd = commandWord opc (imm8Of b.cmd))
    (hscalar : scalarCommand opc b = some i) : encode i = clearUnread b := by
  have hread (l : List Word) : b.opcIn l = l.contains (opc.setWidth 32) := opcIn_of_opc b l (by rw [hcmd, opcOf_commandWord])
  unfold scalarCommand at hscalar
  split at hscalar <;> cases hscalar <;>
    simp [encode, bareBeat, clearUnread, hread, ← hcmd, opcsReadingA, opcsReadingB, opcsReadingF0, opcsReadingF12]

/-- The assembler's beat of a decoded command is the decoded beat without its unread fields. -/
theorem encode_of_decode {b : Beat} {i : Instr} (h : decode b = .legal i) : encode i = clearUnread b := by
  obtain ⟨hrsvd, hscalar | ⟨-, hplain, himm8⟩⟩ := (decode_legal_iff b i).1 h
  · exact encode_of_scalarCommand (word_of_fields _ hrsvd) hscalar
  · exact encode_of_plainCommand ((word_of_fields _ hrsvd).trans (congrArg _ himm8)) hplain

theorem encode_wellFormed (i : Instr) : (encode i).wellFormed = true := by
  cases i with
  | nop => exact Laws.WordIsLegal.nop
  | ldl a => exact Laws.WordIsLegal.ldl a
  | ldl3 a => exact Laws.WordIsLegal.ldl3 a
  | addL a b => exact Laws.WordIsLegal.addL a b
  | subL a b => exact Laws.WordIsLegal.subL a b
  | mulL a b => exact Laws.WordIsLegal.mulL a b
  | divL a b => exact Laws.WordIsLegal.divL a b
  | addS a s => exact Laws.WordIsLegal.addS a s
  | subS a s => exact Laws.WordIsLegal.subS a s
  | mulS a s => exact Laws.WordIsLegal.mulS a s
  | divS a s => exact Laws.WordIsLegal.divS a s
  | addF a f => exact Laws.WordIsLegal.addF a f
  | subF a f => exact Laws.WordIsLegal.subF a f
  | mulF a f => exact Laws.WordIsLegal.mulF a f
  | divF a f => exact Laws.WordIsLegal.divF a f
  | cvtL2F a => exact Laws.WordIsLegal.cvtL2F a
  | cvtF2L f0 f1 f2 => exact Laws.WordIsLegal.cvtF2L f0 f1 f2
  | cvtF2S f => exact Laws.WordIsLegal.cvtF2S f
  | enc a => exact Laws.WordIsLegal.enc a
  | encl a => exact Laws.WordIsLegal.encl a

/-- Settles O2: the assembler's beat decodes to the command, so it has nothing to clear, and every beat that decodes to it is it once cleared. -/
theorem encodeIsTheCanonicalBeat : Obligations.EncodeIsTheCanonicalBeat := by
  intro i b hdecode
  have hencode : encode i = clearUnread b := encode_of_decode hdecode
  refine ⟨(canonical_iff _).2 ⟨encode_wellFormed i, (encode_of_decode (decode_encode i)).symm⟩, fun hcanonical => ?_⟩
  rw [hencode, ((canonical_iff b).1 hcanonical).2]

/-! ### The rows of the opcode table -/

/-- A command word is equal to another exactly when its three fields are (R43). -/
theorem word_eq_iff_fields (c d : Word) : c = d ↔ rsvdOf c = rsvdOf d ∧ imm8Of c = imm8Of d ∧ opcOf c = opcOf d := by
  refine ⟨by rintro rfl; exact ⟨rfl, rfl, rfl⟩, fun ⟨hrsvd, himm8, hopc⟩ => BitVec.eq_of_toNat_eq ?_⟩
  have hr := congrArg BitVec.toNat hrsvd
  have hi := congrArg BitVec.toNat himm8
  have ho := congrArg BitVec.toNat hopc
  simp only [rsvdOf_toNat, imm8Of_toNat, opcOf_toNat] at hr hi ho
  omega

/-- A row whose word is fixed whole selects that word, which has no reserved bit and no IMM8 (R47). -/
theorem plainRow_selects_iff {r : TableRow} (hr : r ∈ plainRows) (c : Word) :
    c &&& r.mask = r.word ↔ rsvdOf c = 0#16 ∧ imm8Of c = 0#8 ∧ opcOf c = opcOf r.word := by
  have hrow : ∀ r ∈ plainRows, r.mask = BitVec.allOnes 32 ∧ rsvdOf r.word = 0#16 ∧ imm8Of r.word = 0#8 := by decide
  obtain ⟨hmask, hrsvd, himm8⟩ := hrow r hr
  rw [hmask, BitVec.and_allOnes, word_eq_iff_fields, hrsvd, himm8]

/-- The mask of the `.S` rows clears IMM8 and keeps the other two fields (R44). -/
theorem masked_fields (c : Word) : rsvdOf (c &&& 0xFFFF00FF#32) = rsvdOf c ∧ imm8Of (c &&& 0xFFFF00FF#32) = 0#8 ∧
    opcOf (c &&& 0xFFFF00FF#32) = opcOf c := by
  have hrsvd : rsvdOf 0xFFFF00FF#32 = BitVec.allOnes 16 := by decide
  have himm8 : imm8Of 0xFFFF00FF#32 = 0#8 := by decide
  have hopc : opcOf 0xFFFF00FF#32 = BitVec.allOnes 8 := by decide
  simp only [rsvdOf, imm8Of, opcOf] at hrsvd himm8 hopc ⊢
  simp only [BitVec.extractLsb'_and, hrsvd, himm8, hopc, BitVec.and_allOnes, BitVec.and_zero, and_self]

/-- A row of a `.S` command selects the words of its OPC without a reserved bit, whatever their IMM8 (R44, R47). -/
theorem scalarRow_selects_iff {r : TableRow} (hr : r ∈ scalarRows) (c : Word) :
    c &&& r.mask = r.word ↔ rsvdOf c = 0#16 ∧ opcOf c = opcOf r.word := by
  have hrow : ∀ r ∈ scalarRows, r.mask = 0xFFFF00FF#32 ∧ rsvdOf r.word = 0#16 ∧ imm8Of r.word = 0#8 := by decide
  obtain ⟨hmask, hrsvd, himm8⟩ := hrow r hr
  rw [hmask, word_eq_iff_fields, hrsvd, himm8]
  simp [masked_fields]

/-- The command of a row's OPC is the row's (R46). -/
theorem plainCommand_of_row {r : TableRow} (hr : r ∈ plainRows) (b : Beat) :
    scalarCommand (opcOf r.word) b = none ∧ ∃ i, plainCommand (opcOf r.word) b = some i ∧ i.mnemonic = r.mnemonic := by
  fin_cases hr <;> exact ⟨rfl, _, rfl, rfl⟩

theorem scalarCommand_of_row {r : TableRow} (hr : r ∈ scalarRows) (b : Beat) :
    ∃ i, scalarCommand (opcOf r.word) b = some i ∧ i.mnemonic = r.mnemonic := by
  fin_cases hr <;> exact ⟨_, rfl, rfl⟩

/-- A word that a row selects decodes to the row's command. -/
theorem decode_of_selected {r : TableRow} (hr : r ∈ tableRows) {b : Beat} (hselects : b.cmd &&& r.mask = r.word) :
    ∃ i, decode b = .legal i ∧ i.mnemonic = r.mnemonic := by
  obtain hr | hr := List.mem_append.1 hr
  · obtain ⟨hrsvd, himm8, hopc⟩ := (plainRow_selects_iff hr _).1 hselects
    obtain ⟨hscalar, i, hplain, hname⟩ := plainCommand_of_row hr b
    rw [← hopc] at hscalar hplain
    exact ⟨i, (decode_legal_iff b i).2 ⟨hrsvd, .inr ⟨hscalar, hplain, himm8⟩⟩, hname⟩
  · obtain ⟨hrsvd, hopc⟩ := (scalarRow_selects_iff hr _).1 hselects
    obtain ⟨i, hscalar, hname⟩ := scalarCommand_of_row hr b
    rw [← hopc] at hscalar
    exact ⟨i, (decode_legal_iff b i).2 ⟨hrsvd, .inl hscalar⟩, hname⟩

/-- An OPC with a command is the OPC of a row. -/
theorem plainRow_of_command {b : Beat} {i : Instr} {opc : Byte} (h : plainCommand opc b = some i) :
    ∃ r ∈ plainRows, opcOf r.word = opc := by
  have hopc := mt (plainCommand_eq_none_iff opc b).2 (by simp [h])
  exact List.mem_map.1 (not_not.1 hopc : opc ∈ plainRows.map fun r => opcOf r.word)

theorem scalarRow_of_command {b : Beat} {i : Instr} {opc : Byte} (h : scalarCommand opc b = some i) :
    ∃ r ∈ scalarRows, opcOf r.word = opc := by
  have hopc := mt (scalarCommand_eq_none_iff opc b).2 (by simp [h])
  exact List.mem_map.1 (not_not.1 hopc : opc ∈ scalarRows.map fun r => opcOf r.word)

/-- A word that decodes to a command is selected by a row. -/
theorem selected_of_decode {b : Beat} {i : Instr} (h : decode b = .legal i) : ∃ r ∈ tableRows, b.cmd &&& r.mask = r.word := by
  obtain ⟨hrsvd, hscalar | ⟨-, hplain, himm8⟩⟩ := (decode_legal_iff b i).1 h
  · obtain ⟨r, hr, hopc⟩ := scalarRow_of_command hscalar
    exact ⟨r, List.mem_append_right _ hr, (scalarRow_selects_iff hr _).2 ⟨hrsvd, hopc.symm⟩⟩
  · obtain ⟨r, hr, hopc⟩ := plainRow_of_command hplain
    exact ⟨r, List.mem_append_left _ hr, (plainRow_selects_iff hr _).2 ⟨hrsvd, himm8, hopc.symm⟩⟩

/-- A word is ILL exactly when no row selects it (R47). -/
theorem decode_ill_iff_unselected (b : Beat) :
    (∃ why, decode b = .ill why) ↔ ∀ r ∈ tableRows, b.cmd &&& r.mask ≠ r.word := by
  rw [decode_ill_iff]
  refine ⟨fun hill r hr hselects => ?_, fun hnone i hlegal => ?_⟩
  · obtain ⟨i, hlegal, -⟩ := decode_of_selected hr hselects
    exact hill i hlegal
  · obtain ⟨r, hr, hselects⟩ := selected_of_decode hlegal
    exact hnone r hr hselects

theorem row_of_mnemonic : ∀ r ∈ tableRows, ∀ r' ∈ tableRows, r'.mnemonic = r.mnemonic → r' = r := by decide

/-- Settles O3: the row that selects a decoded word names its command, and no two rows have one name. -/
theorem decodeFollowsMaskAndMatch : Obligations.DecodeFollowsMaskAndMatch := by
  refine fun b => ⟨fun r hr => ⟨?_, decode_of_selected hr⟩, decode_ill_iff_unselected b⟩
  rintro ⟨i, hlegal, hname⟩
  obtain ⟨r', hr', hselects⟩ := selected_of_decode hlegal
  obtain ⟨j, hlegal', hname'⟩ := decode_of_selected hr' hselects
  obtain rfl : i = j := Decoded.legal.inj (hlegal.symm.trans hlegal')
  rwa [← row_of_mnemonic r hr r' hr' (hname'.symm.trans hname)]

/-! ### Illegal words -/

/-- `Malformed` in the fields of R43. -/
theorem malformed_iff_fields (c : Word) : Malformed c ↔ rsvdOf c ≠ 0#16 ∨ ReservedOpc (opcOf c).toNat ∨
    (¬ (0x20 ≤ (opcOf c).toNat ∧ (opcOf c).toNat ≤ 0x23) ∧ imm8Of c ≠ 0#8) := by
  rw [Malformed, ← rsvdOf_toNat, ← imm8Of_toNat, ← opcOf_toNat, ← BitVec.toNat_ne_iff_ne, ← BitVec.toNat_ne_iff_ne]
  rfl

/-- No row selects a malformed word (R48 to R50). -/
theorem unselected_of_malformed {c : Word} (hc : Malformed c) : ∀ r ∈ tableRows, c &&& r.mask ≠ r.word := by
  have hassigned : ∀ r ∈ tableRows, ¬ ReservedOpc (opcOf r.word).toNat := by decide
  have hscalar : ∀ r ∈ scalarRows, 0x20 ≤ (opcOf r.word).toNat ∧ (opcOf r.word).toNat ≤ 0x23 := by decide
  intro r hr hselects
  rw [malformed_iff_fields] at hc
  obtain hplain | hs := List.mem_append.1 hr
  · obtain ⟨hrsvd, himm8, hopc⟩ := (plainRow_selects_iff hplain c).1 hselects
    rw [hopc] at hc
    exact hc.elim (· hrsvd) fun hc => hc.elim (hassigned r hr) (·.2 himm8)
  · obtain ⟨hrsvd, hopc⟩ := (scalarRow_selects_iff hs c).1 hselects
    rw [hopc] at hc
    exact hc.elim (· hrsvd) fun hc => hc.elim (hassigned r hr) (·.1 (hscalar r hs))

/-- An illegal beat raises ILL, whichever rule it breaks (R98). -/
theorem acceptBeat_of_ill {b : Beat} (hill : ∃ why, decode b = .ill why) (s : State) : acceptBeat b s = raiseIll s := by
  obtain ⟨why, hwhy⟩ := hill
  rw [acceptBeat, hwhy]

/-- A response without encoder beats is the whole effect of a command that RQ takes. -/
theorem respond_effect {s : State} (hopen : Open s) (r : Response) : respond r s = .next { s with rq := s.rq ++ [r] } := by
  rw [respond_open r s hopen, State.push_nil]

/-- Settles O4: no row selects a malformed word, and ILL is one response. -/
theorem malformedWordIsAnsweredIll : Obligations.MalformedWordIsAnsweredIll := by
  intro b s hmalformed hopen
  have hill := (decode_ill_iff_unselected b).2 (unselected_of_malformed hmalformed)
  exact ⟨hill, (acceptBeat_of_ill hill s).trans (respond_effect hopen illResponse)⟩

/-- Clearing the unread fields changes no effect: it leaves the decoded command, and ILL depends on the command word alone. -/
theorem acceptBeat_clearUnread (b : Beat) (s : State) : acceptBeat (clearUnread b) s = acceptBeat b s := by
  cases hdecode : decode b with
  | legal i => rw [← encode_of_decode hdecode, acceptBeat, acceptBeat, hdecode, decode_encode]
  | ill why =>
    have hill : ∃ why, decode b = .ill why := ⟨why, hdecode⟩
    have hcleared := (decode_ill_iff_unselected (clearUnread b)).2 ((decode_ill_iff_unselected b).1 hill)
    rw [acceptBeat_of_ill hill, acceptBeat_of_ill hcleared]

/-- Settles O6: the two beats are one beat once their unread fields are cleared. -/
theorem unreadFieldsHaveNoEffect : Obligations.UnreadFieldsHaveNoEffect := by
  intro b c s hcmd ha hb hf0 hf12
  have hread (l : List Word) : c.opcIn l = b.opcIn l := by rw [Beat.opcIn, Beat.opcIn, hcmd]
  have hcleared : clearUnread b = clearUnread c := by
    simp only [clearUnread, hread, hcmd, Beat.mk.injEq, true_and]
    exact ⟨ite_congr rfl ha fun _ => rfl, ite_congr rfl hb fun _ => rfl, ite_congr rfl hf0 fun _ => rfl,
      ite_congr rfl (fun h => (hf12 h).1) fun _ => rfl, ite_congr rfl (fun h => (hf12 h).2) fun _ => rfl⟩
  rw [← acceptBeat_clearUnread b, hcleared, acceptBeat_clearUnread]

/-! ### Pseudo-instructions and sample words -/

/-- The Led 0 added to another leaves it as it is (R54, R55). -/
theorem map4_sadd_zero (l : Led) : map4 sadd 0 l = l := by
  have hzero (x : Channel) : sadd 0 x = x := BitVec.eq_of_toNat_eq (by rw [sadd_toNat]; simp; omega)
  have hchannels : ledR 0 = 0 ∧ ledG 0 = 0 ∧ ledB 0 = 0 ∧ ledW 0 = 0 := by decide
  obtain ⟨hR, hG, hB, hW⟩ := hchannels
  simp only [map4, hR, hG, hB, hW, hzero, led_channels]

/-- MKRGB's command answers its three channels with white 0 (R53, R58). -/
theorem exec_ldl3_led (r g b w : Channel) (s : State) : exec (.ldl3 (led r g b w)) s = respond (okLed (led r g b 0)) s := by
  rw [exec, execLdl3, ledR_led, ledG_led, ledB_led]

/-- BCAST's command answers the broadcast scalar (R53, R63). -/
theorem exec_addS_zero (k : Byte) (s : State) : exec (.addS 0 k) s = respond (okLed (bcast k)) s := by
  rw [exec, execAddS, map4_sadd_zero]

/-- Settles O56: each expansion is one command, which answers a Led made of the channels that R53 names. -/
theorem pseudoInstructionsAnswerTheirLed : Obligations.PseudoInstructionsAnswerTheirLed := by
  intro s r g b w hopen
  have hled (l : Led) : respond (okLed l) s = .next { s with rq := s.rq ++ [⟨.ok, l, 0, 0, 0⟩] } := respond_effect hopen _
  refine ⟨?zero, ?mkrgb, ?mkrgbw, ?bcast⟩
  case zero => exact ⟨.ldl 0, rfl, hled 0⟩
  case mkrgb => exact ⟨_, led r g b 0, rfl, (exec_ldl3_led r g b 0 s).trans (hled _), by simp [chan_led]⟩
  case mkrgbw => exact ⟨_, led r g b w, rfl, hled _, by simp [chan_led]⟩
  case bcast => exact ⟨_, bcast w, rfl, (exec_addS_zero w s).trans (hled _), by simp [chan_bcast]⟩

/-- Settles O7: each word evaluates. -/
theorem sampleWordsDecode : Obligations.SampleWordsDecode := by
  unfold Obligations.SampleWordsDecode
  decide

end Sys2Proof.Machine
end

section
/-! PROOF. The colour model family (40_color_model.md): the Led that each of its commands answers, channel by channel. An operand beyond A is a Led, or a
scalar or converted factor broadcast to a Led (R56, R71), so each lane function (R54) is stated once for a Led and once for a broadcast. -/

namespace Sys2Proof.Machine

/-! ### One channel of an elementwise operation -/

section
variable (a b : Led) (s : Channel) {k : Nat} (hk : k < 4)
include hk

theorem chan_map4_sadd : chan (map4 sadd a b) k = min (chan a k + chan b k) 255 :=
  chan_map4 sadd (fun x y => min (x + y) 255) sadd_toNat a b k hk

/-- In integers, where the difference may be negative before it saturates (R54). -/
theorem chan_map4_ssub : (chan (map4 ssub a b) k : ℤ) = max ((chan a k : ℤ) - (chan b k : ℤ)) 0 := by
  rw [chan_map4 ssub (· - ·) ssub_toNat a b k hk]
  omega

theorem chan_map4_smul : chan (map4 smul a b) k = min (chan a k * chan b k) 255 :=
  chan_map4 smul (fun x y => min (x * y) 255) smul_toNat a b k hk

theorem chan_map4_sdiv : chan (map4 sdiv a b) k = if chan b k = 0 then 0 else chan a k / chan b k :=
  chan_map4 sdiv (fun x y => if y = 0 then 0 else x / y) sdiv_toNat a b k hk

theorem chan_map4_sadd_bcast : chan (map4 sadd a (bcast s)) k = min (chan a k + s.toNat) 255 := by
  rw [chan_map4_sadd a _ hk, chan_bcast s k hk]

theorem chan_map4_ssub_bcast : (chan (map4 ssub a (bcast s)) k : ℤ) = max ((chan a k : ℤ) - (s.toNat : ℤ)) 0 := by
  rw [chan_map4_ssub a _ hk, chan_bcast s k hk]

theorem chan_map4_smul_bcast : chan (map4 smul a (bcast s)) k = min (chan a k * s.toNat) 255 := by
  rw [chan_map4_smul a _ hk, chan_bcast s k hk]

theorem chan_map4_sdiv_bcast : chan (map4 sdiv a (bcast s)) k = if s.toNat = 0 then 0 else chan a k / s.toNat := by
  rw [chan_map4_sdiv a _ hk, chan_bcast s k hk]

end

/-- A Led with another white keeps its red, green and blue (R13). -/
theorem chan_led_of_white (l : Led) (w : Channel) {k : Nat} (hk : k < 3) :
    chan (led (ledR l) (ledG l) (ledB l) w) k = chan l k := by
  obtain ⟨hR, hG, hB, -⟩ := chan_led (ledR l) (ledG l) (ledB l) w
  interval_cases k
  · rw [hR, ledR_toNat]
  · rw [hG, ledG_toNat]
  · rw [hB, ledB_toNat]

/-! ### The words and the responses of the family -/

/-- A command word given as a number (R43). -/
theorem eq_commandWord_of_toNat {c : Word} {opc imm8 : Byte} (h : c.toNat = opc.toNat + 256 * imm8.toNat) :
    c = commandWord opc imm8 := by
  apply BitVec.eq_of_toNat_eq
  rw [h, commandWord_toNat, Nat.add_comm, Nat.mul_comm]

/-- A word of one of the four `.S` commands decodes to it, with `cmd[15:8]` as its scalar (R44, R47). -/
theorem decode_of_scalarWord {b : Beat} {opc k : Byte} (command : Led → Byte → Instr)
    (hword : b.cmd.toNat = opc.toNat + 256 * k.toNat)
    (hcommand : scalarCommand opc b = some (command b.a (imm8Of b.cmd))) : decode b = .legal (command b.a k) := by
  have hcmd : b.cmd = commandWord opc k := eq_commandWord_of_toNat hword
  rw [hcmd, imm8Of_commandWord] at hcommand
  exact decode_of_scalarCommand opc k hcmd hcommand

/-- A command whose arm responds with a Led answers OK with that Led, and nothing but RQ changes. -/
theorem exec_okLed {i : Instr} {l : Led} {s : State} (hopen : Open s) (harm : exec i s = respond (okLed l) s) :
    exec i s = .next { s with rq := s.rq ++ [⟨.ok, l, 0, 0, 0⟩] } :=
  harm.trans (respond_effect hopen (okLed l))

/-! ### Construction -/

/-- Settles O10: LDL's arm responds with its operand. -/
theorem ldlAnswersTheLed : Obligations.LdlAnswersTheLed := by
  intro b s hcmd hopen
  exact ⟨decode_of_plainCommand 0x01 hcmd rfl rfl, exec_okLed hopen rfl⟩

/-- Settles O11: LDL3's Led is A with its white replaced by 0. -/
theorem ldl3ClearsWhite : Obligations.Ldl3ClearsWhite := by
  intro b s hcmd hopen
  obtain ⟨-, -, -, hW⟩ := chan_led (ledR b.a) (ledG b.a) (ledB b.a) 0
  exact ⟨decode_of_plainCommand 0x02 hcmd rfl rfl, _, exec_okLed hopen rfl, hW, fun _ hk => chan_led_of_white b.a 0 hk⟩

/-! ### Arithmetic with a Led -/

/-- Settles O12: each channel is `sadd` of the operands' channels. -/
theorem addLedSaturates : Obligations.AddLedSaturates := by
  intro b s hcmd hopen
  exact ⟨decode_of_plainCommand 0x10 hcmd rfl rfl, _, exec_okLed hopen rfl, fun _ hk => chan_map4_sadd b.a b.b hk⟩

/-- Settles O13: each channel is `ssub` of the operands' channels. -/
theorem subLedSaturates : Obligations.SubLedSaturates := by
  intro b s hcmd hopen
  exact ⟨decode_of_plainCommand 0x11 hcmd rfl rfl, _, exec_okLed hopen rfl, fun _ hk => chan_map4_ssub b.a b.b hk⟩

/-- Settles O14: each channel is `smul` of the operands' channels. -/
theorem mulLedSaturates : Obligations.MulLedSaturates := by
  intro b s hcmd hopen
  exact ⟨decode_of_plainCommand 0x12 hcmd rfl rfl, _, exec_okLed hopen rfl, fun _ hk => chan_map4_smul b.a b.b hk⟩

/-- Settles O15: each channel is `sdiv` of the operands' channels. -/
theorem divLedTruncatesAndZeroes : Obligations.DivLedTruncatesAndZeroes := by
  intro b s hcmd hopen
  exact ⟨decode_of_plainCommand 0x13 hcmd rfl rfl, _, exec_okLed hopen rfl, fun _ hk => chan_map4_sdiv b.a b.b hk⟩

/-! ### Arithmetic with a scalar -/

/-- Settles O16: each channel is `sadd` of A's channel and the scalar. -/
theorem addScalarSaturates : Obligations.AddScalarSaturates := by
  intro b k s hword hopen
  exact ⟨decode_of_scalarWord (opc := 0x20) .addS hword rfl, _, exec_okLed hopen rfl,
    fun _ hj => chan_map4_sadd_bcast b.a k hj⟩

/-- Settles O17: each channel is `ssub` of A's channel and the scalar. -/
theorem subScalarSaturates : Obligations.SubScalarSaturates := by
  intro b k s hword hopen
  exact ⟨decode_of_scalarWord (opc := 0x21) .subS hword rfl, _, exec_okLed hopen rfl,
    fun _ hj => chan_map4_ssub_bcast b.a k hj⟩

/-- Settles O18: each channel is `smul` of A's channel and the scalar. -/
theorem mulScalarSaturates : Obligations.MulScalarSaturates := by
  intro b k s hword hopen
  exact ⟨decode_of_scalarWord (opc := 0x22) .mulS hword rfl, _, exec_okLed hopen rfl,
    fun _ hj => chan_map4_smul_bcast b.a k hj⟩

/-- Settles O19: each channel is `sdiv` of A's channel by the scalar. -/
theorem divScalarTruncatesAndZeroes : Obligations.DivScalarTruncatesAndZeroes := by
  intro b k s hword hopen
  exact ⟨decode_of_scalarWord (opc := 0x23) .divS hword rfl, _, exec_okLed hopen rfl,
    fun _ hj => chan_map4_sdiv_bcast b.a k hj⟩

/-! ### Arithmetic with a float factor -/

/-- Settles O20: each channel is `sadd` of A's channel and the converted factor. -/
theorem addFactorConvertsThenAdds : Obligations.AddFactorConvertsThenAdds := by
  intro b s hcmd hopen
  exact ⟨decode_of_plainCommand 0x30 hcmd rfl rfl, _, exec_okLed hopen rfl,
    fun _ hj => chan_map4_sadd_bcast b.a (tobyte b.f0) hj⟩

/-- Settles O21: each channel is `ssub` of A's channel and the converted factor. -/
theorem subFactorConvertsThenSubtracts : Obligations.SubFactorConvertsThenSubtracts := by
  intro b s hcmd hopen
  exact ⟨decode_of_plainCommand 0x31 hcmd rfl rfl, _, exec_okLed hopen rfl,
    fun _ hj => chan_map4_ssub_bcast b.a (tobyte b.f0) hj⟩

/-- Settles O22: each channel is `smul` of A's channel and the converted factor. -/
theorem mulFactorConvertsThenMultiplies : Obligations.MulFactorConvertsThenMultiplies := by
  intro b s hcmd hopen
  exact ⟨decode_of_plainCommand 0x32 hcmd rfl rfl, _, exec_okLed hopen rfl,
    fun _ hj => chan_map4_smul_bcast b.a (tobyte b.f0) hj⟩

/-- Settles O23: each channel is `sdiv` of A's channel by the converted factor. -/
theorem divFactorConvertsThenDivides : Obligations.DivFactorConvertsThenDivides := by
  intro b s hcmd hopen
  exact ⟨decode_of_plainCommand 0x33 hcmd rfl rfl, _, exec_okLed hopen rfl,
    fun _ hj => chan_map4_sdiv_bcast b.a (tobyte b.f0) hj⟩

end Sys2Proof.Machine
end

section
/-! PROOF. The conversion family (41_conversion.md): `tofloat` and `tobyte` as numbers (R73 to R75), the round trip (R79), and the three commands. One fact
about whole numbers carries R75 and R79: 255 divides 2^24 - 1, so 255 times a binary32 value that lies below a byte lies more than one part in 2^24 below it
(`product_clears_byte`), while rounding moves a number by at most that much (`rounding_error`). -/

namespace Sys2Proof.Machine

/-! ### Clamped floor -/

/-- `min(max(floor(v), 0), 255)` (R75). -/
def clampFloor (v : ℚ) : ℤ := min (max ⌊v⌋ 0) 255

theorem clampFloor_of_nonpos {v : ℚ} (h : v ≤ 0) : clampFloor v = 0 := by
  have : ⌊v⌋ ≤ 0 := by exact_mod_cast (Int.floor_le v).trans h
  unfold clampFloor
  omega

theorem clampFloor_of_le {v : ℚ} (h : 255 ≤ v) : clampFloor v = 255 := by
  have : 255 ≤ ⌊v⌋ := Int.le_floor.2 (by exact_mod_cast h)
  unfold clampFloor
  omega

/-- Between 0 and 255 nothing is clamped. -/
theorem clampFloor_of_mem {v : ℚ} (hlow : 0 ≤ v) (hhigh : v < 256) : clampFloor v = ⌊v⌋ := by
  have h0 : 0 ≤ ⌊v⌋ := Int.floor_nonneg.2 hlow
  have h1 : ⌊v⌋ < 256 := Int.floor_lt.2 (by exact_mod_cast hhigh)
  unfold clampFloor
  omega

/-- R74's clamp low, clamp high and truncate. -/
theorem clampFloor_eq_ite (v : ℚ) : clampFloor v = if v ≤ 0 then 0 else if 255 ≤ v then 255 else ⌊v⌋ := by
  split
  next h => exact clampFloor_of_nonpos h
  next hlow =>
    split
    next h => exact clampFloor_of_le h
    next hhigh => exact clampFloor_of_mem (by linarith) (by linarith)

/-- A value given in units. -/
theorem clampFloor_units (m : ℕ) : clampFloor ((m : ℚ) / 2 ^ 149) = (min (m / 2 ^ 149) 255 : ℕ) := by
  have hfloor : ⌊(m : ℚ) / (2 ^ 149 : ℕ)⌋ = ((m / 2 ^ 149 : ℕ) : ℤ) := by
    rw [Int.floor_div_natCast, Int.floor_natCast, Int.natCast_div]
  rw [Nat.cast_pow, Nat.cast_ofNat] at hfloor
  rw [clampFloor, hfloor]
  omega

/-- The clamped floor is decided by the comparisons with the bytes. -/
theorem clampFloor_congr {v w : ℚ} (h : ∀ n : ℕ, n ≤ 255 → ((n : ℚ) ≤ v ↔ (n : ℚ) ≤ w)) : clampFloor v = clampFloor w := by
  have hfloor (n : ℕ) (hn : n ≤ 255) : (n : ℤ) ≤ ⌊v⌋ ↔ (n : ℤ) ≤ ⌊w⌋ := by
    simpa only [Int.le_floor, Int.cast_natCast] using h n hn
  have hv := hfloor (min ⌊v⌋ 255).toNat
  have hw := hfloor (min ⌊w⌋ 255).toNat
  unfold clampFloor
  omega

/-! ### The rounded number and its error -/

theorem nat_eq_of_abs_sub_le_half {m n : ℕ} (h : |(m : ℚ) - n| ≤ 1 / 2) : m = n := by
  have hlt : |(m : ℤ) - n| < 1 := by
    have : |(m : ℚ) - n| < 1 := by linarith
    exact_mod_cast this
  have := Int.abs_lt_one_iff.1 hlt
  omega

/-- The number that `rneMagnitude` chooses for num / den, in units, where it is finite. -/
def roundedUnits (num den : Nat) : Nat := rneSignificand num den * 2 ^ rneExcess num den

section
variable {num den : Nat} (hden : 0 < den)
include hden

theorem f32Units_rne32 (negative : Bool) (h : (num : ℚ) / den < 2 ^ 128 - 2 ^ 103) :
    f32Units (rne32 negative num den) = roundedUnits num den := by
  have hunits := relativeUnits_rne32 hden negative h
  rw [relativeUnits, if_pos (f32Sign_rne32 ..)] at hunits
  exact_mod_cast hunits

theorem abs_roundedUnits_sub_le : |(roundedUnits num den : ℚ) - exactUnits num den| ≤ 2 ^ rneExcess num den / 2 := by
  have hpos : (0 : ℚ) < 2 ^ rneExcess num den := by positivity
  have hnear := (rneSignificand_near (num := num) hden).1
  rw [roundedUnits, Nat.cast_mul, Nat.cast_pow, Nat.cast_ofNat, abs_mul_sub _ _ hpos]
  linarith [mul_le_mul_of_nonneg_right hnear hpos.le]

/-- Rounding moves a number by at most one part in 2^24, of the number as of the result; without excess bits this needs a whole number of units. -/
theorem rounding_error (hwhole : rneExcess num den = 0 → ∃ m : ℕ, exactUnits num den = m) :
    |(roundedUnits num den : ℚ) - exactUnits num den| * 2 ^ 24 ≤ exactUnits num den ∧
      |(roundedUnits num den : ℚ) - exactUnits num den| * 2 ^ 24 ≤ roundedUnits num den := by
  have hnear := abs_roundedUnits_sub_le (num := num) hden
  by_cases hk : rneExcess num den = 0
  · obtain ⟨m, hm⟩ := hwhole hk
    rw [hk, hm, pow_zero] at hnear
    rw [hm, nat_eq_of_abs_sub_le_half hnear]
    simp
  · have hx := (le_exactUnits (num := num) hden).resolve_left hk
    have hq : (2 : ℚ) ^ 23 * 2 ^ rneExcess num den ≤ roundedUnits num den := by
      have hsig := (le_rneSignificand (num := num) hden).resolve_left hk
      rw [roundedUnits, Nat.cast_mul, Nat.cast_pow, Nat.cast_ofNat]
      gcongr
      exact_mod_cast hsig
    generalize exactUnits num den = x, (roundedUnits num den : ℚ) = y, (2 : ℚ) ^ rneExcess num den = step at *
    constructor <;> linarith

/-- Rounding does not take a number below a byte that it reaches. -/
theorem byte_le_roundedUnits {n : ℕ} (hn : n ≤ 255) (h : (n : ℚ) * 2 ^ 149 ≤ exactUnits num den) :
    (n : ℚ) * 2 ^ 149 ≤ roundedUnits num den := by
  have hnear := abs_roundedUnits_sub_le (num := num) hden
  have hle := le_exactUnits (num := num) hden
  have hn : (n : ℚ) ≤ 255 := by exact_mod_cast hn
  rw [roundedUnits, Nat.cast_mul, Nat.cast_pow, Nat.cast_ofNat] at *
  generalize rneExcess num den = k, rneSignificand num den = q, exactUnits num den = x at *
  rcases Nat.lt_or_ge 149 k with hk | hk
  · have hstep : (2 : ℚ) ^ 149 ≤ 2 ^ k := pow_le_pow_right₀ (by norm_num) hk.le
    have hx := hle.resolve_left (by omega)
    have hlow := (abs_le.1 hnear).1
    linarith
  · have hbyte : (n : ℚ) * 2 ^ 149 = (n * 2 ^ (149 - k) : ℤ) * 2 ^ k := by
      push_cast
      rw [mul_assoc, ← pow_add, Nat.sub_add_cancel hk]
    have hnearest := (nearest_multiple (step := 2 ^ k) (by positivity) (q := q) hnear (n * 2 ^ (149 - k))).1
    rw [← hbyte, Int.cast_natCast, abs_of_nonpos (sub_nonpos.2 h)] at hnearest
    have hlow := neg_abs_le ((q : ℚ) * 2 ^ k - x)
    linarith

end

/-! ### The product by 255 -/

/-- A multiple of 255 below a multiple `h` of 2^24 lies more than one part in 2^24 below it: their difference is `h` modulo 255, so it is at least `h`, or
`h` is at least 256 and too large for the multiple. -/
theorem multiple_clears {q h : ℕ} (hq : q < 2 ^ 24) (hlt : 255 * q < h * 2 ^ 24) : 255 * q * (2 ^ 24 + 1) < h * 2 ^ 24 * 2 ^ 24 := by
  obtain ⟨gap, hgap⟩ : ∃ gap, h * 2 ^ 24 = 255 * q + gap := Nat.exists_eq_add_of_le hlt.le
  rcases Nat.lt_or_ge gap h with hlt' | hge
  · have hlarge : 256 ≤ h := by omega
    omega
  · omega

/-- Where the product of a binary32 value by 255 lies below a byte, in units, it lies more than one part in 2^24 below it. -/
theorem product_clears_byte (f : F32) {n : ℕ} (hn : n ≤ 255) (hlt : 255 * (f32Units f : ℚ) < n * 2 ^ 149) :
    255 * (f32Units f : ℚ) * (2 ^ 24 + 1) < n * 2 ^ 149 * 2 ^ 24 := by
  obtain ⟨k, q, hunits, hq, hnormal⟩ := f32Units_form f
  have hlt : 255 * f32Units f < n * 2 ^ 149 := by exact_mod_cast hlt
  suffices hclear : 255 * f32Units f * (2 ^ 24 + 1) < n * 2 ^ 149 * 2 ^ 24 by exact_mod_cast hclear
  rw [hunits] at hlt ⊢
  have hk : k ≤ 125 := by
    by_contra hk
    have hstep : 2 ^ 126 ≤ 2 ^ k := Nat.pow_le_pow_right (by norm_num) (by omega)
    have hsig : 2 ^ 23 ≤ q := hnormal.resolve_left (by omega)
    have := Nat.mul_le_mul hsig hstep
    omega
  have hpow : n * 2 ^ 149 = n * 2 ^ (125 - k) * 2 ^ 24 * 2 ^ k := by
    rw [mul_assoc, mul_assoc, ← pow_add, ← pow_add]
    congr 2
    omega
  rw [hpow, ← mul_assoc] at hlt
  rw [hpow]
  have hclear := multiple_clears hq (lt_of_mul_lt_mul_right hlt (Nat.zero_le _))
  calc 255 * (q * 2 ^ k) * (2 ^ 24 + 1) = 255 * q * (2 ^ 24 + 1) * 2 ^ k := by ring
    _ < n * 2 ^ (125 - k) * 2 ^ 24 * 2 ^ 24 * 2 ^ k := by gcongr
    _ = n * 2 ^ (125 - k) * 2 ^ 24 * 2 ^ k * 2 ^ 24 := by ring

/-- The product by 255 is a whole number of units. -/
theorem exactUnits_product (u : ℕ) : exactUnits (255 * u) (2 ^ 149) = 255 * u := by
  rw [exactUnits, Nat.cast_pow, Nat.cast_ofNat, div_mul_cancel₀ _ (by positivity), Nat.cast_mul, Nat.cast_ofNat]

/-- The rounded product reaches a byte exactly where the exact one does (R75). -/
theorem byte_le_product_iff (f : F32) {n : ℕ} (hn : n ≤ 255) :
    (n : ℚ) * 2 ^ 149 ≤ roundedUnits (255 * f32Units f) (2 ^ 149) ↔ (n : ℚ) * 2 ^ 149 ≤ 255 * f32Units f := by
  have hden : 0 < 2 ^ 149 := by positivity
  have hexact := exactUnits_product (f32Units f)
  constructor
  · intro hreached
    by_contra hlt
    have hclear := product_clears_byte f hn (not_le.1 hlt)
    have herror := (rounding_error (num := 255 * f32Units f) hden fun _ => ⟨255 * f32Units f, by rw [hexact]; push_cast; rfl⟩).1
    rw [hexact] at herror
    have := le_abs_self ((roundedUnits (255 * f32Units f) (2 ^ 149) : ℚ) - 255 * f32Units f)
    linarith
  · intro hreached
    exact byte_le_roundedUnits hden hn (hexact ▸ hreached)

/-! ### `tobyte` -/

theorem f32Value_nonpos {f : F32} (h : f32Sign f = true) : f32Value f ≤ 0 := by
  have : (0 : ℚ) ≤ f32Units f / 2 ^ 149 := by positivity
  rw [f32Value, if_pos h]
  linarith

theorem f32Value_of_positive {f : F32} (h : f32Sign f = false) : f32Value f = f32Units f / 2 ^ 149 := by
  simp [f32Value, h]

theorem f32Exp_of_inf {f : F32} (h : f32IsInf f = true) : f32Exp f = 255 := by
  rw [f32IsInf, Bool.and_eq_true, beq_iff_eq] at h
  exact h.1

theorem not_inf_of_finite {f : F32} (h : F32Finite f) : f32IsInf f = false := by
  rw [← Bool.not_eq_true]
  exact fun hinf => h (f32Exp_of_inf hinf)

theorem not_nan_of_finite {f : F32} (h : F32Finite f) : f32IsNaN f = false := by
  simp [f32IsNaN, show f32Exp f ≠ 255 from h]

theorem clampToByte_of_inf {p : F32} (h : f32IsInf p = true) : clampToByte p = if f32Sign p then 0 else 255 := by
  have hunits : f32Units p ≠ 0 := by
    have hexp := f32Exp_of_inf h
    rw [f32Units, if_neg (by omega)]
    positivity
  simp [clampToByte, h, hunits]

/-- Clamping and truncating, in units, is the clamped floor of the value (R74). -/
theorem clampToByte_toNat {p : F32} (h : f32IsInf p = false) : ((clampToByte p).toNat : ℤ) = clampFloor (f32Value p) := by
  cases hsign : f32Sign p
  · rw [f32Value_of_positive hsign, clampFloor_units]
    simp only [clampToByte, hsign, h, Bool.false_eq_true, false_or]
    split_ifs with hzero hhigh
    · simp [hzero]
    · have := (Nat.le_div_iff_mul_le (by positivity)).2 hhigh
      rw [min_eq_right this]
      rfl
    · have := (Nat.div_lt_iff_lt_mul (by positivity)).2 (not_le.1 hhigh)
      rw [BitVec.toNat_ofNat, Nat.mod_eq_of_lt (by omega), min_eq_left this.le]
  · rw [clampFloor_of_nonpos (f32Value_nonpos hsign)]
    simp [clampToByte, hsign]

theorem tobyte_of_number {f : F32} (h : f32IsNaN f = false) : tobyte f = clampToByte (f32Times255 f) := by simp [tobyte, h]

section
variable {f : F32}

theorem f32Times255_of_inf (h : f32IsInf f = true) : f32Times255 f = f := by simp [f32Times255, h]

theorem f32Times255_of_not_inf (h : f32IsInf f = false) : f32Times255 f = rne32 (f32Sign f) (255 * f32Units f) (2 ^ 149) := by
  simp [f32Times255, h]

theorem f32Sign_f32Times255 : f32Sign (f32Times255 f) = f32Sign f := by
  cases h : f32IsInf f
  · rw [f32Times255_of_not_inf h, f32Sign_rne32]
  · rw [f32Times255_of_inf h]

/-- The product by 255 as `rne32` takes it: a sign and a quotient. -/
theorem product_value (f : F32) :
    255 * f32Value f = (if f32Sign f then -1 else 1) * (((255 * f32Units f : ℕ) : ℚ) / (2 ^ 149 : ℕ)) := by
  rw [f32Value]
  push_cast
  ring

/-- The product is rounded once (R74). -/
theorem f32Times255_roundsTo (h : f32IsInf f = false) : RoundsTo (255 * f32Value f) (f32Times255 f) := by
  rw [product_value, f32Times255_of_not_inf h]
  exact roundingIsNearestTiesToEven _ _ _ (by positivity)

/-- The product of a finite value is rounded to an infinity from the threshold on (R10). -/
theorem product_inf_iff (hf : f32IsInf f = false) :
    f32IsInf (f32Times255 f) = true ↔ 2 ^ 128 - 2 ^ 103 ≤ ((255 * f32Units f : ℕ) : ℚ) / (2 ^ 149 : ℕ) := by
  have hden : 0 < 2 ^ 149 := by positivity
  rw [f32Times255_of_not_inf hf]
  refine ⟨fun hinf => ?_, rne32_infinite hden _⟩
  by_contra hlt
  exact rne32_finite hden (f32Sign f) (not_le.1 hlt) (f32Exp_of_inf hinf)

/-- A positive product that is rounded to an infinity lies beyond every byte. -/
theorem le_product_of_inf (hf : f32IsInf f = false) (hp : f32IsInf (f32Times255 f) = true) (hsign : f32Sign f = false) :
    255 ≤ 255 * f32Value f := by
  have hthreshold := (product_inf_iff hf).1 hp
  rw [product_value, hsign, if_neg Bool.false_ne_true]
  linarith

/-- The value of a positive product that is not rounded to an infinity. -/
theorem f32Value_f32Times255 (hf : f32IsInf f = false) (hp : f32IsInf (f32Times255 f) = false) (hsign : f32Sign f = false) :
    f32Value (f32Times255 f) = (roundedUnits (255 * f32Units f) (2 ^ 149) : ℚ) / 2 ^ 149 := by
  have hlt := not_le.1 (mt (product_inf_iff hf).2 (by simp [hp]))
  rw [f32Value_of_positive (f32Sign_f32Times255.trans hsign), f32Times255_of_not_inf hf, f32Units_rne32 (by positivity) _ hlt]

/-- The rounding of the product changes no clamped floor. -/
theorem clampFloor_f32Times255 (hf : f32IsInf f = false) (hp : f32IsInf (f32Times255 f) = false) :
    clampFloor (f32Value (f32Times255 f)) = clampFloor (255 * f32Value f) := by
  cases hsign : f32Sign f
  · refine clampFloor_congr fun n hn => ?_
    rw [f32Value_f32Times255 hf hp hsign, f32Value_of_positive hsign, ← mul_div_assoc, le_div_iff₀ (by positivity), le_div_iff₀ (by positivity)]
    exact byte_le_product_iff f hn
  · have := f32Value_nonpos hsign
    rw [clampFloor_of_nonpos (f32Value_nonpos (f32Sign_f32Times255.trans hsign)), clampFloor_of_nonpos (by linarith)]

/-- `tobyte` of a finite value is the clamped floor of the exact product (R75). -/
theorem tobyte_toNat (hnan : f32IsNaN f = false) (hf : f32IsInf f = false) : ((tobyte f).toNat : ℤ) = clampFloor (255 * f32Value f) := by
  rw [tobyte_of_number hnan]
  cases hp : f32IsInf (f32Times255 f)
  · rw [clampToByte_toNat hp, clampFloor_f32Times255 hf hp]
  · rw [clampToByte_of_inf hp, f32Sign_f32Times255]
    cases hsign : f32Sign f
    · rw [clampFloor_of_le (le_product_of_inf hf hp hsign)]
      rfl
    · have := f32Value_nonpos hsign
      rw [clampFloor_of_nonpos (by linarith)]
      rfl

end

/-- Settles O31: p is `f32Times255 f`. -/
theorem toByteClampsTheRoundedProduct : Obligations.ToByteClampsTheRoundedProduct := by
  refine fun f => ⟨tobyte_nan f, fun hnan => ⟨f32Times255 f, f32Times255_of_inf, f32Times255_roundsTo, ?_, ?_⟩⟩
  · rw [tobyte_of_number hnan]
    exact clampToByte_of_inf
  · rw [tobyte_of_number hnan, ← clampFloor_eq_ite]
    exact clampToByte_toNat

/-- Settles O32: an infinity is its own product, and for a finite value the rounding changes no clamped floor. -/
theorem toByteEqualsTheExactFloor : Obligations.ToByteEqualsTheExactFloor := by
  intro f hnan
  cases hf : f32IsInf f
  · exact tobyte_toNat hnan hf
  · rw [tobyte_of_number hnan, f32Times255_of_inf hf, clampToByte_of_inf hf]
    cases f32Sign f <;> rfl

/-! ### `tofloat` -/

theorem f32Sign_tofloat (c : Channel) : f32Sign (tofloat c) = false := f32Sign_rne32 ..

theorem channel_lt_threshold (c : Channel) : (c.toNat : ℚ) / (255 : ℕ) < 2 ^ 128 - 2 ^ 103 := by
  have hc : (c.toNat : ℚ) < 256 := by exact_mod_cast c.isLt
  rw [Nat.cast_ofNat, div_lt_iff₀ (by positivity)]
  linarith

theorem tofloat_finite (c : Channel) : F32Finite (tofloat c) := rne32_finite (by decide) false (channel_lt_threshold c)

theorem tofloat_roundsTo (c : Channel) : RoundsTo ((c.toNat : ℚ) / 255) (tofloat c) := by
  simpa [tofloat] using roundingIsNearestTiesToEven false c.toNat 255 (by decide)

theorem f32Units_tofloat (c : Channel) : f32Units (tofloat c) = roundedUnits c.toNat 255 :=
  f32Units_rne32 (by decide) false (channel_lt_threshold c)

/-- Of the quotients c/255, only 0 has no excess bits. -/
theorem channel_whole_of_no_excess (c : Channel) (hk : rneExcess c.toNat 255 = 0) : ∃ m : ℕ, exactUnits c.toNat 255 = m := by
  have hlt := exactUnits_lt (num := c.toNat) (den := 255) (by decide)
  rw [hk, exactUnits] at hlt
  have hlt' : (c.toNat : ℚ) < 1 := by linarith
  have hzero : c.toNat = 0 := Nat.lt_one_iff.1 (by exact_mod_cast hlt')
  exact ⟨0, by simp [exactUnits, hzero]⟩

/-- `tofloat c` lies at c/255 or above, since no binary32 value below c/255 is near enough, and 255 times it lies below c + 1 (R73, R79). -/
theorem tofloat_bounds (c : Channel) : (c.toNat : ℚ) ≤ 255 * f32Value (tofloat c) ∧ 255 * f32Value (tofloat c) < c.toNat + 1 := by
  have hc : c.toNat ≤ 255 := Nat.le_of_lt_succ c.isLt
  have hexact : 255 * exactUnits c.toNat 255 = c.toNat * 2 ^ 149 := by
    rw [exactUnits]
    push_cast
    ring
  obtain ⟨herror, herror'⟩ := rounding_error (by decide) (channel_whole_of_no_excess c)
  have hclears := product_clears_byte (tofloat c) hc
  rw [f32Value_of_positive (f32Sign_tofloat c), ← mul_div_assoc, le_div_iff₀ (by positivity), div_lt_iff₀ (by positivity)]
  rw [← f32Units_tofloat] at herror herror'
  generalize f32Units (tofloat c) = y, exactUnits c.toNat 255 = x at *
  have hc : (c.toNat : ℚ) ≤ 255 := by exact_mod_cast hc
  constructor
  · by_contra hlt
    have hclear := hclears (not_le.1 hlt)
    have := neg_abs_le ((y : ℚ) - x)
    linarith
  · have := le_abs_self ((y : ℚ) - x)
    linarith

/-- Every channel survives conversion to a float and back (R79). -/
theorem tobyte_tofloat (c : Channel) : tobyte (tofloat c) = c := by
  obtain ⟨hlow, hhigh⟩ := tofloat_bounds c
  have hc : (c.toNat : ℚ) + 1 ≤ 256 := by exact_mod_cast c.isLt
  have hfloor : ⌊255 * f32Value (tofloat c)⌋ = (c.toNat : ℤ) := Int.floor_eq_iff.2 ⟨by exact_mod_cast hlow, by exact_mod_cast hhigh⟩
  have h := tobyte_toNat (not_nan_of_finite (tofloat_finite c)) (not_inf_of_finite (tofloat_finite c))
  rw [clampFloor_of_mem ((Nat.cast_nonneg _).trans hlow) (by linarith), hfloor] at h
  exact BitVec.eq_of_toNat_eq (by exact_mod_cast h)

theorem tofloat_nonneg (c : Channel) : 0 ≤ f32Value (tofloat c) := by
  rw [f32Value_of_positive (f32Sign_tofloat c)]
  positivity

theorem tofloat_strictMono {c d : Channel} (h : c.toNat < d.toNat) : f32Value (tofloat c) < f32Value (tofloat d) := by
  have hstep : (c.toNat : ℚ) + 1 ≤ d.toNat := by exact_mod_cast h
  linarith [(tofloat_bounds c).2, (tofloat_bounds d).1]

theorem tofloat_255 : tofloat 255 = 0x3F800000#32 := by decide

theorem tofloat_le_one (c : Channel) : f32Value (tofloat c) ≤ 1 := by
  have htop : f32Value (tofloat 255) = 1 := by
    have hunits : f32Units 0x3F800000#32 = 2 ^ 149 := by decide
    rw [f32Value_of_positive (f32Sign_tofloat 255), tofloat_255, hunits]
    norm_num
  rcases (Nat.le_of_lt_succ c.isLt : c.toNat ≤ 255).lt_or_eq with hlt | heq
  · exact htop ▸ (tofloat_strictMono hlt).le
  · obtain rfl : c = 255 := BitVec.eq_of_toNat_eq heq
    exact htop.le

/-- Settles O30: one rounding of c/255 that `tofloat_bounds` keeps between c/255 and (c + 1)/255. -/
theorem toFloatIsNearestAndIncreasing : Obligations.ToFloatIsNearestAndIncreasing :=
  ⟨fun c => ⟨tofloat_roundsTo c, tofloat_finite c, tofloat_nonneg c, tofloat_le_one c⟩, by decide, tofloat_255, fun _ _ => tofloat_strictMono⟩

/-! ### The commands -/

/-- Settles O24: the arm converts the red, green and blue of A. -/
theorem ledToFloatsRoundsEachChannel : Obligations.LedToFloatsRoundsEachChannel := by
  intro b s hcmd hopen
  refine ⟨decode_of_plainCommand 0x40 hcmd rfl rfl, _, _, _, respond_effect hopen (okFloats _ _ _), ?_, ?_, ?_, ?_⟩
  · rw [← ledR_toNat]
    exact tofloat_roundsTo _
  · rw [← ledG_toNat]
    exact tofloat_roundsTo _
  · rw [← ledB_toNat]
    exact tofloat_roundsTo _
  · have hall (c : Channel) := And.intro (tofloat_finite c) (And.intro (f32Sign_tofloat c) (tofloat_le_one c))
    simp [hall]

/-- Settles O25: the arm answers the Led of the three converted components with white 0. -/
theorem floatsToLedConvertsEachComponent : Obligations.FloatsToLedConvertsEachComponent := by
  intro b s hcmd hopen
  exact ⟨decode_of_plainCommand 0x41 hcmd rfl rfl, _, exec_okLed hopen rfl, chan_led _ _ _ 0⟩

/-- Settles O26: the broadcast scalar that the arm answers is the operand that the `.F` arms build. -/
theorem factorToScalarBroadcasts : Obligations.FactorToScalarBroadcasts := by
  intro b s hcmd hopen
  exact ⟨decode_of_plainCommand 0x42 hcmd rfl rfl, bcast (tobyte b.f0), exec_okLed hopen rfl, chan_bcast _, fun a u => ⟨rfl, rfl, rfl, rfl⟩⟩

/-- CVT.F2L of the floats of A's channels does what LDL3 A does (R79). -/
theorem exec_cvtF2L_tofloat (a : Led) (u : State) :
    exec (.cvtF2L (tofloat (ledR a)) (tofloat (ledG a)) (tofloat (ledB a))) u = exec (.ldl3 a) u := by
  simp only [exec, execCvtF2L, execLdl3, tobyte_tofloat]

/-- Settles O33: `tobyte_tofloat` for each channel; 0.5 becomes 127, whose float is below 0.5. -/
theorem channelRoundTrip : Obligations.ChannelRoundTrip := by
  refine ⟨tobyte_tofloat, fun a s t hnext => ?_, 0x3F000000, by decide, by decide⟩
  obtain ⟨-, rfl⟩ := (commit_next_iff false (okFloats _ _ _) [] s t).1 hnext
  exact ⟨_, rfl, exec_cvtF2L_tofloat a⟩

end Sys2Proof.Machine
end

section
/-! PROOF. The bit encoder family (42_bit_encoder.md). In the block: the bytes of ENC and ENCL, and that the stream of accepted commands holds symbols alone.
Beside it: what `splitFrames` cuts the stream into, and the levels and the length of symbols, frames and lines. -/

namespace Sys2Proof.Machine

/-! ### The bytes of ENC and ENCL -/

@[simp] theorem encBeats_data (l : Led) : (encBeats l).map (·.data) = encBytes l := by simp [encBeats, Function.comp_def]

theorem encBeats_eq (l : Led) : encBeats l = (List.range 32).map fun i => ⟨wireByte l i, false⟩ := by
  rw [encBeats, encBytes_eq, List.map_map]
  rfl

/-- No byte of ENC ends a frame (R85). -/
theorem encBeats_last {l : Led} {e : EncBeat} (he : e ∈ encBeats l) : e.last = false := by
  obtain ⟨d, -, rfl⟩ := List.mem_map.1 he
  rfl

theorem enclBeats_eq (l : Led) : enclBeats l = (List.range 32).map fun i => ⟨wireByte l i, decide (i = 31)⟩ := by
  rw [enclBeats, encBytes_eq]
  apply List.ext_getElem <;> simp [beq_eq_decide]

/-- ENCL has the byte values of ENC (R86). -/
@[simp] theorem enclBeats_data (l : Led) : (enclBeats l).map (·.data) = encBytes l := by
  rw [enclBeats_eq, encBytes_eq, List.map_map]
  rfl

/-- Byte 31 alone ends the frame (R86). -/
theorem enclBeats_eq_append (l : Led) :
    enclBeats l = ((List.range 31).map fun i => ⟨wireByte l i, false⟩) ++ [⟨wireByte l 31, true⟩] := by
  have hfront : ∀ i ∈ List.range 31, EncBeat.mk (wireByte l i) (decide (i = 31)) = ⟨wireByte l i, false⟩ := by
    intro i hi
    simp [(List.mem_range.1 hi).ne]
  rw [enclBeats_eq, List.range_succ, List.map_append, List.map_congr_left hfront]
  rfl

/-- The beats and the response of an encoder command enter the queues when OQ has 32 free entries, and until then there is no step (R25, R85). -/
theorem emitAndRespond_effect {s : State} (hopen : Open s) (bs : List EncBeat) (r : Response) :
    (OqOpen s → emitAndRespond bs r s = .next { s with rq := s.rq ++ [r], oq := s.oq ++ bs }) ∧
    (¬ OqOpen s → ∀ t, emitAndRespond bs r s ≠ .next t) := by
  refine ⟨emitAndRespond_open bs r s hopen, fun hfull t ht => ?_⟩
  rw [emitAndRespond, commit_blocked _ _ _ _ _ (blockedBy_oqFull s hopen hfull)] at ht
  cases ht

/-- Settles O27: ENC's arm emits `encBeats`. -/
theorem encEmitsThirtyTwoBytes : Obligations.EncEmitsThirtyTwoBytes := by
  intro b s hcmd hopen
  refine ⟨decode_of_plainCommand 0x50 hcmd rfl rfl, ?_⟩
  rw [← encBeats_eq]
  exact emitAndRespond_effect hopen (encBeats b.a) okZero

/-- Settles O28: ENCL's arm emits `enclBeats`. -/
theorem enclMarksTheLastByte : Obligations.EnclMarksTheLastByte := by
  intro b s hcmd hopen
  refine ⟨decode_of_plainCommand 0x51 hcmd rfl rfl, ?_⟩
  rw [← enclBeats_eq]
  exact emitAndRespond_effect hopen (enclBeats b.a) okZero

/-! ### The encoder stream -/

/-- The bytes that a legal beat puts out are those that its command emits. -/
theorem outputsOf_bytes_of_legal {b : Beat} {i : Instr} {bs : List EncBeat} {r : Response} (hlegal : decode b = .legal i)
    (harm : ∀ s, exec i s = emitAndRespond bs r s) : (outputsOf b).2 = bs := by
  have haccept : acceptBeat b State.reset = .next (State.reset.push r bs) := by
    rw [acceptBeat, hlegal]
    exact (harm _).trans (commit_admitted _ _ _ _ (blockedBy_reset true))
  simp [outputsOf, haccept]

theorem outputsOf_bytes_of_enc {b : Beat} {a : Led} (hlegal : decode b = .legal (.enc a)) : (outputsOf b).2 = encBeats a :=
  outputsOf_bytes_of_legal hlegal fun _ => rfl

theorem outputsOf_bytes_of_encl {b : Beat} {a : Led} (hlegal : decode b = .legal (.encl a)) : (outputsOf b).2 = enclBeats a :=
  outputsOf_bytes_of_legal hlegal fun _ => rfl

/-- The bytes a beat puts out are the encoding of a Led, or there are none. -/
theorem outputsOf_data (b : Beat) : (outputsOf b).2 = [] ∨ ∃ a, (outputsOf b).2.map (·.data) = encBytes a := by
  by_cases hencoder : isEncoder b = true
  · obtain ⟨a, henc | hencl⟩ := (isEncoder_iff b).1 hencoder
    · exact .inr ⟨a, by rw [outputsOf_bytes_of_enc henc, encBeats_data]⟩
    · exact .inr ⟨a, by rw [outputsOf_bytes_of_encl hencl, enclBeats_data]⟩
  · exact .inl (List.eq_nil_of_length_eq_zero (by rw [outputsOf_bytes_length, if_neg hencoder]))

/-- A byte of a Led's encoding is the symbol of a bit (R84). -/
theorem exists_sym_of_mem_encBytes {l : Led} {d : Byte} (hd : d ∈ encBytes l) : ∃ bit, d = sym bit := by
  obtain ⟨i, -, rfl⟩ := List.mem_map.1 hd
  exact ⟨_, rfl⟩

/-- Every byte sent or waiting is the symbol of a bit (R81). -/
theorem QueueInv.exists_sym {s : State} (hinv : QueueInv s) {e : EncBeat} (he : e ∈ s.sent ++ s.oq) : ∃ bit, e.data = sym bit := by
  rw [hinv.bytes, List.mem_flatMap] at he
  obtain ⟨b, -, hb⟩ := he
  obtain hnone | ⟨a, ha⟩ := outputsOf_data b
  · simp [hnone] at hb
  · exact exists_sym_of_mem_encBytes (l := a) (ha ▸ List.mem_map_of_mem hb)

/-- Settles O52: the symbol of a 1 is 0xF0, the symbol of a 0 is 0xC0. -/
theorem onlyTwoSymbolsOnTheStream : Obligations.OnlyTwoSymbolsOnTheStream := by
  intro s hinv e he
  obtain ⟨bit, hbit⟩ := hinv.exists_sym he
  rw [hbit]
  cases bit
  · exact .inr rfl
  · exact .inl rfl

/-! ### Frames -/

section
variable {e : EncBeat} {rest tail : List EncBeat}

theorem splitFrames_cons_last (hlast : e.last = true) :
    splitFrames (e :: rest) = ([e] :: (splitFrames rest).1, (splitFrames rest).2) := by
  simp [splitFrames, hlast]

theorem splitFrames_cons_of_no_frame (hlast : e.last = false) (hrest : splitFrames rest = ([], tail)) :
    splitFrames (e :: rest) = ([], e :: tail) := by
  simp [splitFrames, hlast, hrest]

theorem splitFrames_cons_of_frame {f : List EncBeat} {more : List (List EncBeat)} (hlast : e.last = false)
    (hrest : splitFrames rest = (f :: more, tail)) : splitFrames (e :: rest) = ((e :: f) :: more, tail) := by
  simp [splitFrames, hlast, hrest]

/-- Beats of which the last one alone has last = 1 are one whole frame (R87). -/
theorem splitFrames_whole (hlast : e.last = true) {front : List EncBeat} (hfront : ∀ x ∈ front, x.last = false) :
    splitFrames (front ++ [e]) = ([front ++ [e]], []) := by
  induction front with
  | nil => exact splitFrames_cons_last hlast
  | cons x front ih =>
    rw [List.forall_mem_cons] at hfront
    exact splitFrames_cons_of_frame hfront.1 (ih hfront.2)

end

/-- A complete frame has a beat, and its beats are beats of the stream (R87). -/
theorem frame_of_mem_splitFrames (es : List EncBeat) : ∀ f ∈ (splitFrames es).1, f ≠ [] ∧ f ⊆ es := by
  induction es with
  | nil => simp [splitFrames]
  | cons e rest ih =>
    have hkeep : ∀ f ∈ (splitFrames rest).1, f ≠ [] ∧ f ⊆ e :: rest := fun f hf =>
      ⟨(ih f hf).1, List.subset_cons_of_subset e (ih f hf).2⟩
    cases hlast : e.last with
    | true =>
      rw [splitFrames_cons_last hlast, List.forall_mem_cons]
      exact ⟨by simp, hkeep⟩
    | false =>
      match hrest : splitFrames rest with
      | ([], tail) => simp [splitFrames_cons_of_no_frame hlast hrest]
      | (f :: more, tail) =>
        rw [hrest, List.forall_mem_cons] at hkeep
        obtain ⟨⟨-, hsub⟩, hmore⟩ := hkeep
        rw [splitFrames_cons_of_frame hlast hrest, List.forall_mem_cons]
        exact ⟨⟨by simp, List.cons_subset.2 ⟨by simp, hsub⟩⟩, hmore⟩

/-- The beats that the commands of an ENCF put out: those of ENC for each Led but the last, and those of ENCL for the last (R53, R88). -/
theorem encf_beats (init : List Led) (last : Led) :
    (((Pseudo.encf init last).expand.map encode).flatMap fun b => (outputsOf b).2) = init.flatMap encBeats ++ enclBeats last := by
  simp [Pseudo.expand, List.flatMap_map, outputsOf_bytes_of_enc (decode_encode _), outputsOf_bytes_of_encl (decode_encode _)]

theorem encf_beats_length (init : List Led) (last : Led) :
    (init.flatMap encBeats ++ enclBeats last).length = 32 * (init.length + 1) := by
  have hinit : (init.flatMap encBeats).length = init.length * 32 := by simp [List.length_flatMap]
  rw [List.length_append, hinit, enclBeats_length]
  omega

/-- Settles O55: only the last beat of the ENCL ends a frame. -/
theorem frameIsThirtyTwoBytesALed : Obligations.FrameIsThirtyTwoBytesALed := by
  intro init last
  simp only [encf_beats]
  refine ⟨encf_beats_length init last, ?_, ?_⟩
  · simp [List.map_flatMap, encBytes_eq]
  · rw [enclBeats_eq_append, ← List.append_assoc]
    refine splitFrames_whole rfl fun e he => ?_
    obtain henc | hencl := List.mem_append.1 he
    · obtain ⟨l, -, hl⟩ := List.mem_flatMap.1 henc
      exact encBeats_last hl
    · obtain ⟨i, -, rfl⟩ := List.mem_map.1 hencl
      rfl

/-! ### Levels -/

/-- A symbol is high for four periods for a 1 and for two for a 0, and then low (R81, R90). -/
theorem symbolLevels_sym (bit : Bool) : symbolLevels (sym bit) =
    if bit then [true, true, true, true, false, false, false, false] else [true, true, false, false, false, false, false, false] := by
  cases bit <;> decide

/-- The high part and the low part of a symbol (R92). -/
theorem symbolLevels_sym_eq_parts (bit : Bool) : symbolLevels (sym bit) =
    List.replicate (if bit then 4 else 2) true ++ List.replicate (if bit then 4 else 6) false := by
  cases bit <;> decide

@[simp] theorem symbolLevels_length (d : Byte) : (symbolLevels d).length = 8 := by simp [symbolLevels]

@[simp] theorem frameLevels_length (f : List EncBeat) : (frameLevels f).length = 8 * f.length := by
  simp [frameLevels, List.length_flatMap, Nat.mul_comm]

theorem symbolLevels_wireByte (l : Led) (i : Nat) : symbolLevels (wireByte l i) =
    if (chan l (wireChannel (i / 8))).testBit (7 - i % 8) then [true, true, true, true, false, false, false, false]
    else [true, true, false, false, false, false, false, false] :=
  symbolLevels_sym _

/-- Settles O57: each of the 32 bytes is a symbol on the line. -/
theorem ledOnTheLine : Obligations.LedOnTheLine := by
  intro l
  refine ⟨by simp, ?_⟩
  rw [frameLevels, encBeats_eq, List.flatMap_map]
  simp only [symbolLevels_wireByte]

/-- A Led is 256 periods, by ENC or by ENCL (R92). -/
theorem frameLevels_led_length {l : Led} {beats : List EncBeat} (hbeats : beats ∈ [encBeats l, enclBeats l]) :
    (frameLevels beats).length = 256 := by
  rw [frameLevels_length]
  obtain henc | hencl := List.mem_pair.1 hbeats
  · rw [henc, encBeats_length]
  · rw [hencl, enclBeats_length]

/-- The frame of an ENCF of N Leds is 256 N periods (R88, R92). -/
theorem frameLevels_encf_length (init : List Led) (last : Led) :
    (frameLevels (init.flatMap encBeats ++ enclBeats last)).length = 256 * (init.length + 1) := by
  rw [frameLevels_length, encf_beats_length]
  omega

/-- A symbol first starts the frame high (R90). -/
theorem frameLevels_head {f : List EncBeat} (hne : f ≠ []) (hsym : ∀ e ∈ f, ∃ bit, e.data = sym bit) :
    (frameLevels f).head? = some true := by
  obtain ⟨e, rest, rfl⟩ := List.exists_cons_of_ne_nil hne
  obtain ⟨bit, hbit⟩ := hsym e List.mem_cons_self
  rw [frameLevels, List.flatMap_cons, hbit, symbolLevels_sym]
  cases bit <;> rfl

/-- A symbol last leaves the line low (R90, R95). -/
theorem frameLevels_drop {f : List EncBeat} (hne : f ≠ []) (hsym : ∀ e ∈ f, ∃ bit, e.data = sym bit) :
    (frameLevels f).drop ((frameLevels f).length - 4) = [false, false, false, false] := by
  obtain ⟨front, e, rfl⟩ : ∃ front e, f = front ++ [e] := ⟨_, _, (List.dropLast_append_getLast hne).symm⟩
  obtain ⟨bit, hbit⟩ := hsym e (by simp)
  have hlevels : frameLevels (front ++ [e]) = frameLevels front ++ symbolLevels (sym bit) := by simp [frameLevels, hbit]
  have hdrop : (frameLevels (front ++ [e])).length - 4 = (frameLevels front).length + 4 := by
    rw [hlevels, List.length_append, symbolLevels_length]
    rfl
  rw [hdrop, hlevels, List.drop_length_add_append, symbolLevels_sym]
  cases bit <;> rfl

/-- Settles O58: a complete frame is made of symbols. -/
theorem everyFrameLeavesTheLineLow : Obligations.EveryFrameLeavesTheLineLow := by
  intro s hinv f hf
  obtain ⟨hne, hsub⟩ := frame_of_mem_splitFrames s.sent f hf
  have hsym : ∀ e ∈ f, ∃ bit, e.data = sym bit := fun e he => hinv.exists_sym (List.mem_append_left s.oq (hsub he))
  exact ⟨frameLevels_head hne hsym, frameLevels_drop hne hsym⟩

/-! ### Durations -/

/-- `latchPeriods` is the least number of periods that last T_LATCH (R94). -/
theorem latchPeriods_le_iff {fBit : ℚ} (hclock : 0 < fBit) (tLatch : ℚ) (n : Nat) :
    latchPeriods fBit tLatch ≤ n ↔ tLatch ≤ seconds fBit n := by
  rw [latchPeriods, Nat.ceil_le, seconds, le_div_iff₀ hclock]

/-- A line with a gap of at least `least` periods before each frame holds these gaps and the frames. -/
theorem le_lineLevels_length {least : Nat} {segments : List (Nat × List EncBeat)} (hgaps : ∀ p ∈ segments, least ≤ p.1) (tail : Nat) :
    segments.length * least + (segments.map fun p => 8 * p.2.length).sum ≤ (lineLevels segments tail).length := by
  induction segments with
  | nil => simp
  | cons p rest ih =>
    obtain ⟨hgap, hrest⟩ := List.forall_mem_cons.1 hgaps
    have hline := ih hrest
    have hgapSum : (rest.length + 1) * least = rest.length * least + least := Nat.add_one_mul ..
    simp only [lineLevels, List.length_cons, List.map_cons, List.sum_cons, List.length_append, List.length_replicate, frameLevels_length]
    omega

/-- Settles O59: each gap is `latchPeriods` at least. -/
theorem conformingGapsLastTLatch : Obligations.ConformingGapsLastTLatch := by
  intro fBit tLatch hclock
  refine ⟨latchPeriods_le_iff hclock tLatch, ?_⟩
  rintro _ _ ⟨segments, tail, rfl, hgaps, rfl⟩
  refine ⟨⟨segments, tail, rfl, rfl, fun p hp => (latchPeriods_le_iff hclock tLatch p.1).1 (hgaps p hp)⟩, ?_⟩
  rw [List.length_map, List.map_map]
  exact le_lineLevels_length hgaps tail

/-- A bit period at the nominal clock is 156.25 ns (R92). -/
theorem seconds_nominal (periods : Nat) : seconds Config.fBitNominal periods = periods * (15625 / 100000 * (1 / 1000000)) := by
  rw [seconds, Config.fBitNominal]
  ring

/-- At the nominal clock n Leds, 256 periods each, last 40 n µs (R92). -/
theorem seconds_nominal_leds (n : Nat) : seconds Config.fBitNominal (256 * n) = 40 * n * (1 / 1000000) := by
  rw [seconds_nominal]
  push_cast
  ring

/-- Settles O60: the lengths of the symbols' parts, of a Led and of a frame, each at 156.25 ns a period. -/
theorem symbolTimesAtTheNominalClock : Obligations.SymbolTimesAtTheNominalClock := by
  refine ⟨fun level => ?_, fun bit => ?_, fun l beats hbeats => ?_, fun init last => ?_⟩
  · simp [seconds_nominal]
  · refine ⟨_, _, symbolLevels_sym_eq_parts bit, fun x => List.eq_of_mem_replicate, fun x => List.eq_of_mem_replicate, ?_, ?_, ?_⟩
    · cases bit <;> norm_num [seconds_nominal]
    · cases bit <;> norm_num [seconds_nominal]
    · norm_num [seconds_nominal]
  · have hlength := frameLevels_led_length hbeats
    simp only [hlength, seconds_nominal]
    exact ⟨trivial, by norm_num⟩
  · have hlength := frameLevels_encf_length init last
    simp only [encf_beats, hlength, seconds_nominal_leds]
    exact ⟨trivial, by push_cast; rfl⟩

end Sys2Proof.Machine
end

section
/-! PROOF. The system family (43_system.md): NOP, and the words that share its OPC. -/

namespace Sys2Proof.Machine

/-- A nonzero word with OPC 0x00 has a reserved bit or an IMM8 that NOP does not take (R49, R50). -/
theorem malformed_of_nopOpc {c : Word} (hopc : c.toNat % 256 = 0) (hne : c ≠ 0) : Malformed c := by
  have hvalue : c.toNat ≠ 0 := mt (BitVec.eq_of_toNat_eq (y := 0)) hne
  by_cases hrsvd : c.toNat / 65536 = 0
  case pos =>
    have himm8 : c.toNat / 256 % 256 ≠ 0 := by omega
    exact .inr (.inr ⟨by simp [hopc], himm8⟩)
  case neg => exact .inl hrsvd

/-- Settles O9: NOP's arm responds with zeros, and the other words of its OPC are malformed, so no row selects them. -/
theorem nopAnswersOk : Obligations.NopAnswersOk := by
  refine ⟨fun b s hcmd hopen => ?_, fun b hopc hne => ?_⟩
  · exact ⟨decode_of_plainCommand 0x00 hcmd rfl rfl, respond_effect hopen okZero⟩
  · exact (decode_ill_iff_unselected b).2 (unselected_of_malformed (malformed_of_nopOpc hopc hne))

end Sys2Proof.Machine
end

section
/-! PROOF. The exceptions family (60_exceptions.md): ILL is raised for malformed command words and for no other reason (R98), and any two enabled steps of the block
can be taken in either order (R102). -/

namespace Sys2Proof.Machine

/-! ### The status of a response -/

/-- An OPC outside the reserved ranges is that of a row (R46, R48). -/
theorem row_of_unreserved {opc : Byte} (hopc : ¬ ReservedOpc opc.toNat) : ∃ r ∈ tableRows, opcOf r.word = opc := by
  have hopcs : (tableRows.map fun r => opcOf r.word) = [0x00, 0x01, 0x02, 0x10, 0x11, 0x12, 0x13, 0x30, 0x31, 0x32, 0x33,
      0x40, 0x41, 0x42, 0x50, 0x51, 0x20, 0x21, 0x22, 0x23] := by decide
  apply List.mem_map.1
  simp only [hopcs, List.mem_cons, List.not_mem_nil, or_false, ← BitVec.toNat_inj, BitVec.reduceToNat]
  omega

/-- A word that is not malformed is selected by a row (R47 to R50). -/
theorem selected_of_not_malformed {c : Word} (hc : ¬ Malformed c) : ∃ r ∈ tableRows, c &&& r.mask = r.word := by
  have hplain : ∀ r ∈ plainRows, ¬ (0x20 ≤ (opcOf r.word).toNat ∧ (opcOf r.word).toNat ≤ 0x23) := by decide
  rw [malformed_iff_fields, not_or, not_or, not_and_not_right] at hc
  obtain ⟨hrsvd, hassigned, himm8⟩ := hc
  obtain ⟨r, hr, hopc⟩ := row_of_unreserved hassigned
  refine ⟨r, hr, ?_⟩
  obtain hp | hs := List.mem_append.1 hr
  · rw [← hopc] at himm8
    exact (plainRow_selects_iff hp c).2 ⟨not_not.1 hrsvd, himm8 (hplain r hp), hopc.symm⟩
  · exact (scalarRow_selects_iff hs c).2 ⟨not_not.1 hrsvd, hopc.symm⟩

/-- An accepted beat that decodes to a command is answered OK (R45, R98). -/
theorem acceptBeat_status_of_legal {b : Beat} {i : Instr} {s t : State} (hlegal : decode b = .legal i)
    (haccept : acceptBeat b s = .next t) : ∃ r, t.rq = s.rq ++ [r] ∧ r.st = .ok := by
  obtain ⟨r, bs, hok, -, hcommit⟩ := exec_is_commit i
  simp only [acceptBeat, hlegal, hcommit, commit_next_iff] at haccept
  obtain ⟨-, rfl⟩ := haccept
  exact ⟨r, rfl, hok⟩

/-- Settles O5: a malformed word is answered as O4 says, and any other is selected by a row, so it decodes to a command, whose response is OK. -/
theorem illExactlyForMalformedWords : Obligations.IllExactlyForMalformedWords := by
  intro b s t haccept
  by_cases hmalformed : Malformed b.cmd
  case pos =>
    obtain ⟨⟨hopen, -⟩, -⟩ := (acceptBeat_next_iff b s t).1 haccept
    obtain ⟨-, hill⟩ := malformedWordIsAnsweredIll b s hmalformed hopen
    obtain rfl := Host.Outcome.next.inj (hill.symm.trans haccept)
    exact ⟨illResponse, rfl, fun _ => ⟨rfl, rfl, rfl, rfl, rfl⟩, fun h => absurd hmalformed h⟩
  case neg =>
    obtain ⟨row, hrow, hselects⟩ := selected_of_not_malformed hmalformed
    obtain ⟨i, hlegal, -⟩ := decode_of_selected hrow hselects
    obtain ⟨r, hr, hok⟩ := acceptBeat_status_of_legal hlegal haccept
    exact ⟨r, hr, fun h => absurd h hmalformed, fun _ => by rw [hok, statusCode]⟩

/-! ### Enabled steps commute -/

/-- Two turns that are both enabled can be taken in either order, with the same state after both. -/
def TurnsCommute (x y : Turn) : Prop :=
  ∀ s t u, takeTurn x s = .next t → takeTurn y s = .next u → ∃ v, takeTurn y t = .next v ∧ takeTurn x u = .next v

theorem TurnsCommute.symm {x y : Turn} (h : TurnsCommute x y) : TurnsCommute y x := by
  intro s t u ht hu
  obtain ⟨v, hv, hv'⟩ := h s u t hu ht
  exact ⟨v, hv', hv⟩

/-- Accept takes a step exactly when a beat is offered that R25 admits, and its whole effect. -/
theorem takeTurn_accept_next_iff (s t : State) : takeTurn .accept s = .next t ↔
    ∃ b rest, s.offers = b :: rest ∧ (Open s ∧ (isEncoder b = true → OqOpen s)) ∧
      t = { s.fetched b rest with rq := s.rq ++ (outputsOf b).1, oq := s.oq ++ (outputsOf b).2 } := by
  rw [takeTurn, acceptOffer]
  cases hoffers : s.offers with
  | nil => simp
  | cons b rest =>
    simp only [List.cons.injEq, and_assoc, exists_eq_left', exists_and_left]
    rw [acceptBeat_next_iff, and_assoc]
    rfl

/-- Accept adds behind the head of RQ that Respond takes, and Respond only makes room in RQ (R25, R26). -/
theorem turnsCommute_accept_respond : TurnsCommute .accept .respond := by
  intro s t u ht hu
  obtain ⟨b, rest, hoffers, ⟨hopen, hoqOpen⟩, rfl⟩ := (takeTurn_accept_next_iff s t).1 ht
  obtain ⟨hrst, hready, r, queue, hrq, rfl⟩ := (deliverResponse_next_iff s u).1 hu
  have hroom : queue.length < Config.rqDepth := by
    have hlt := hopen.2
    rw [hrq, List.length_cons] at hlt
    omega
  refine ⟨_, (deliverResponse_next_iff _ _).2 ⟨hrst, hready, r, queue ++ (outputsOf b).1, by simp [hrq], rfl⟩, ?_⟩
  exact (takeTurn_accept_next_iff _ _).2 ⟨b, rest, hoffers, ⟨⟨hrst, hroom⟩, hoqOpen⟩, rfl⟩

/-- Accept adds behind the head of OQ that Emit takes, and Emit only makes room in OQ (R25, R27). -/
theorem turnsCommute_accept_emit : TurnsCommute .accept .emit := by
  intro s t u ht hu
  obtain ⟨b, rest, hoffers, ⟨hopen, hoqOpen⟩, rfl⟩ := (takeTurn_accept_next_iff s t).1 ht
  obtain ⟨hrst, hready, e, queue, hoq, rfl⟩ := (deliverByte_next_iff s u).1 hu
  have hroom (hencoder : isEncoder b = true) : queue.length + 32 ≤ Config.oqDepth := by
    have hle : s.oq.length + 32 ≤ Config.oqDepth := hoqOpen hencoder
    rw [hoq, List.length_cons] at hle
    omega
  refine ⟨_, (deliverByte_next_iff _ _).2 ⟨hrst, hready, e, queue ++ (outputsOf b).2, by simp [hoq], rfl⟩, ?_⟩
  exact (takeTurn_accept_next_iff _ _).2 ⟨b, rest, hoffers, ⟨hopen, hroom⟩, rfl⟩

/-- Respond and Emit each leave the other's queue as it is (R26, R27). -/
theorem turnsCommute_respond_emit : TurnsCommute .respond .emit := by
  intro s t u ht hu
  obtain ⟨hrst, hhost, r, responses, hrq, rfl⟩ := (deliverResponse_next_iff s t).1 ht
  obtain ⟨-, hdownstream, e, bytes, hoq, rfl⟩ := (deliverByte_next_iff s u).1 hu
  exact ⟨_, (deliverByte_next_iff _ _).2 ⟨hrst, hdownstream, e, bytes, hoq, rfl⟩,
    (deliverResponse_next_iff _ _).2 ⟨hrst, hhost, r, responses, hrq, rfl⟩⟩

/-- Any two different steps of the block commute. -/
theorem turnsCommute_of_ne {x y : Turn} (hx : x ∈ [Turn.accept, .respond, .emit]) (hy : y ∈ [Turn.accept, .respond, .emit])
    (hne : x ≠ y) : TurnsCommute x y := by
  simp only [List.mem_cons, List.not_mem_nil, or_false] at hx hy
  obtain rfl | rfl | rfl := hx
  · obtain rfl | rfl | rfl := hy
    · exact absurd rfl hne
    · exact turnsCommute_accept_respond
    · exact turnsCommute_accept_emit
  · obtain rfl | rfl | rfl := hy
    · exact turnsCommute_accept_respond.symm
    · exact absurd rfl hne
    · exact turnsCommute_respond_emit
  · obtain rfl | rfl | rfl := hy
    · exact turnsCommute_accept_emit.symm
    · exact turnsCommute_respond_emit.symm
    · exact absurd rfl hne

/-- A step takes the plan's first turn, whatever plan stands behind it, and leaves the rest of the plan and the hosts (R24, R42). -/
theorem takeTurn_of_step {s t : State} {x : Turn} {plan : List Turn} (hstep : step { s with turns := x :: plan } = .next t)
    (ts : List Turn) : t.turns = plan ∧ t.hosts ≤ 1 ∧ takeTurn x (s.nextTurn ts) = .next (t.nextTurn ts) := by
  obtain ⟨hhosts, _, _, hturns, hturn⟩ := (step_next_iff _ t).1 hstep
  obtain ⟨rfl, rfl⟩ := List.cons.inj hturns
  obtain ⟨hplan, hsame⟩ := takeTurn_frame _ _ _ hturn
  have hanyPlan := takeTurn_nextTurn _ _ _ ts hturn
  exact ⟨hplan, hsame.trans_le hhosts, hanyPlan⟩

/-- Settles O53: each step is its turn, the two turns commute, and the plan left after both is the same. -/
theorem enabledStepsCommute : Obligations.EnabledStepsCommute := by
  intro s ts x y t u hx hy hne ht hu
  obtain ⟨htTurns, htHosts, hxTurn⟩ := takeTurn_of_step ht ts
  obtain ⟨huTurns, huHosts, hyTurn⟩ := takeTurn_of_step hu ts
  obtain ⟨v, hyThen, hxThen⟩ := turnsCommute_of_ne hx hy hne _ _ _ hxTurn hyTurn
  exact ⟨v, (step_of_turn htHosts htTurns).trans hyThen, (step_of_turn huHosts huTurns).trans hxThen⟩

end Sys2Proof.Machine
end

section
/-! PROOF. The reset and hazards family (70_reset_and_hazards.md): what a reset edge leaves (R113, R114), that nothing moves while rst = 1 (R112), and that the
deliveries end a run when they are weakly fair (R122). -/

namespace Sys2Proof.Machine

/-! ### The reset edge -/

/-- A step whose turn is a reset edge is taken exactly while rst = 1, and it clears the block (R112, R113). -/
theorem step_reset_next_iff {s : State} {ts : List Turn} (hhosts : s.hosts ≤ 1) (hturns : s.turns = .reset :: ts) (t : State) :
    step s = .next t ↔ s.pins.rst = true ∧ t = (s.nextTurn ts).cleared := by
  rw [step_of_turn hhosts hturns, takeTurn, resetBlock_next_iff, State.nextTurn_pins]

/-- Settles O40: the step is there, and it clears both queues and leaves the offers. -/
theorem resetEmptiesBothQueues : Obligations.ResetEmptiesBothQueues := by
  intro s ts hhosts hturns hrst
  exact ⟨(s.nextTurn ts).cleared, (step_reset_next_iff hhosts hturns _).2 ⟨hrst, rfl⟩, rfl, rfl, rfl, rfl⟩

/-- Settles O41: clearing moves what was sent behind what was sent before, and starts the histories anew. -/
theorem resetLeavesThePartialFrame : Obligations.ResetLeavesThePartialFrame := by
  intro s t ts hturns hstep
  obtain ⟨hhosts, -⟩ := (step_next_iff s t).1 hstep
  obtain ⟨-, rfl⟩ := (step_reset_next_iff hhosts hturns t).1 hstep
  exact ⟨by simp, rfl, rfl, rfl⟩

/-! ### While rst = 1 -/

/-- While rst = 1 no command is admitted, for the reason that names it (R112). -/
theorem blockedBy_inReset (encoder : Bool) {s : State} (hrst : s.pins.rst = true) : blockedBy encoder s = some .inReset :=
  if_pos hrst

/-- Accept, Respond and Emit happen only out of reset (R25 to R27, R112). -/
theorem rst_of_takeTurn {turn : Turn} {s t : State} (hmem : turn ∈ [Turn.accept, .respond, .emit])
    (hturn : takeTurn turn s = .next t) : s.pins.rst = false := by
  simp only [List.mem_cons, List.not_mem_nil, or_false] at hmem
  obtain rfl | rfl | rfl := hmem
  · obtain ⟨b, rest, -, ⟨⟨hrst, -⟩, -⟩, -⟩ := (takeTurn_accept_next_iff s t).1 hturn
    exact hrst
  · exact ((deliverResponse_next_iff s t).1 hturn).1
  · exact ((deliverByte_next_iff s t).1 hturn).1

/-- Settles O42: rst = 1 blocks every command and masks both valid signals, and the three turns of the block need rst = 0. -/
theorem nothingMovesDuringReset : Obligations.NothingMovesDuringReset := by
  intro s hrst
  have hready : cmdReady s = false := by cases hoffers : s.offers <;> simp [cmdReady, hoffers, blockedBy_inReset _ hrst]
  have hrsp : rspValid s = false := by simp [rspValid, hrst]
  have henc : encValid s = false := by simp [encValid, hrst]
  refine ⟨hready, hrsp, henc, by simp [rspPayload, hrsp], by simp [encPayload, henc], fun i t hexec => ?_, ?_⟩
  · obtain ⟨r, bs, -, -, hcommit⟩ := exec_is_commit i
    rw [hcommit, commit_blocked _ _ _ _ _ (blockedBy_inReset _ hrst)] at hexec
    cases hexec
  · intro turn ts t hturns hmem hstep
    obtain ⟨hhosts, -⟩ := (step_next_iff s t).1 hstep
    rw [step_of_turn hhosts hturns] at hstep
    have hout : s.pins.rst = false := rst_of_takeTurn (s := s.nextTurn ts) hmem hstep
    simp [hrst] at hout

/-! ### Deliveries to ready agents -/

/-- The block is out of reset, and the host and the downstream are ready (R26, R27). -/
abbrev AgentsReady (s : State) : Prop := s.pins = ⟨false, true, true⟩

section
variable {s : State} (hready : AgentsReady s)
include hready

/-- With the host ready, Respond delivers the head of RQ when there is one (R26). -/
theorem takes_respond_iff (t : State) :
    Takes .respond s t ↔ s.hosts ≤ 1 ∧ ∃ r rest, s.rq = r :: rest ∧ t = s.popResponse r rest := by
  rw [Takes, takeTurn, deliverResponse_next_iff]
  simp [hready]

/-- With the downstream ready, Emit delivers the head of OQ when there is one (R27). -/
theorem takes_emit_iff (t : State) : Takes .emit s t ↔ s.hosts ≤ 1 ∧ ∃ e rest, s.oq = e :: rest ∧ t = s.popByte e rest := by
  rw [Takes, takeTurn, deliverByte_next_iff]
  simp [hready]

end

/-! ### The bounded drain -/

/-- The state after the first i responses and the first j bytes that wait in `s` have been delivered. -/
def State.afterDelivering (s : State) (i j : Nat) : State :=
  { s with rq := s.rq.drop i, oq := s.oq.drop j, delivered := s.delivered ++ s.rq.take i, sent := s.sent ++ s.oq.take j }

theorem State.afterDelivering_zero (s : State) : s.afterDelivering 0 0 = s := by simp [State.afterDelivering]

theorem State.afterDelivering_all (s : State) : s.afterDelivering s.rq.length s.oq.length = s.drained := by
  simp [State.afterDelivering, State.drained]

section
variable {s : State} (hhosts : s.hosts ≤ 1) (hready : AgentsReady s) {i j : Nat}
include hhosts hready

/-- Respond delivers the next response. -/
theorem takes_respond_afterDelivering (hi : i < s.rq.length) :
    Takes .respond (s.afterDelivering i j) (s.afterDelivering (i + 1) j) := by
  have hhead : (s.afterDelivering i j).rq = s.rq[i] :: s.rq.drop (i + 1) := List.drop_eq_getElem_cons hi
  refine (takes_respond_iff (s := s.afterDelivering i j) hready _).2 ⟨hhosts, _, _, hhead, ?_⟩
  simp [State.afterDelivering, State.popResponse]

/-- Emit delivers the next byte. -/
theorem takes_emit_afterDelivering (hj : j < s.oq.length) :
    Takes .emit (s.afterDelivering i j) (s.afterDelivering i (j + 1)) := by
  have hhead : (s.afterDelivering i j).oq = s.oq[j] :: s.oq.drop (j + 1) := List.drop_eq_getElem_cons hj
  refine (takes_emit_iff (s := s.afterDelivering i j) hready _).2 ⟨hhosts, _, _, hhead, ?_⟩
  simp [State.afterDelivering, State.popByte]

end

/-- When a kind of turn can be taken k times, a run whose plan begins with k of them takes them and goes on from there. -/
theorem run_replicate {turn : Turn} (fuel : Nat) (ts : List Turn) : ∀ (k : Nat) (states : Nat → State),
    (∀ i < k, Takes turn (states i) (states (i + 1))) →
    Sys2Proof.core.run (k + fuel) ((states 0).nextTurn (List.replicate k turn ++ ts)) =
      Sys2Proof.core.run fuel ((states k).nextTurn ts)
  | 0, states, _ => by simp
  | k + 1, states, htakes => by
    have hfirst : Sys2Proof.core.step ((states 0).nextTurn (List.replicate (k + 1) turn ++ ts))
        = .next ((states 1).nextTurn (List.replicate k turn ++ ts)) :=
      ((takes_iff_step _ _ _ _).1 (htakes 0 k.succ_pos)).2
    have hrest := run_replicate fuel ts k (fun i => states (i + 1)) fun i hi => htakes (i + 1) (Nat.succ_lt_succ hi)
    simpa [Nat.add_right_comm k 1 fuel, Host.Core.run, hfirst] using hrest

/-- As many Respond and then as many Emit as entries wait deliver them all (R26, R27). -/
theorem run_drain {s : State} {ts : List Turn} (hhosts : s.hosts ≤ 1) (hready : AgentsReady s)
    (hturns : s.turns = List.replicate s.rq.length .respond ++ (List.replicate s.oq.length .emit ++ ts)) :
    Sys2Proof.core.run (s.rq.length + s.oq.length) s = .next (s.drained.nextTurn ts) := by
  have hresponses := run_replicate s.oq.length (List.replicate s.oq.length .emit ++ ts) s.rq.length (s.afterDelivering · 0)
    fun i hi => takes_respond_afterDelivering hhosts hready hi
  have hbytes := run_replicate 0 ts s.oq.length (s.afterDelivering s.rq.length ·)
    fun j hj => takes_emit_afterDelivering hhosts hready hj
  have hplan : s.nextTurn s.turns = s := rfl
  rw [State.afterDelivering_zero, ← hturns, hplan] at hresponses
  rw [State.afterDelivering_all] at hbytes
  exact hresponses.trans hbytes

/-! ### What a run out of reset keeps -/

/-- What any number of turns out of reset comes to: deliveries are not taken back, and each history with its queue grows by what the beats
accepted meanwhile put out (R25 to R27). -/
structure Advances (s t : State) : Prop where
  delivered : s.delivered <+: t.delivered
  sent : s.sent <+: t.sent
  outputs : ∃ bs, s.offers = bs ++ t.offers ∧
    t.delivered ++ t.rq = s.delivered ++ s.rq ++ bs.flatMap (fun b => (outputsOf b).1) ∧
    t.sent ++ t.oq = s.sent ++ s.oq ++ bs.flatMap (fun b => (outputsOf b).2)

theorem Advances.refl (s : State) : Advances s s :=
  ⟨List.prefix_rfl, List.prefix_rfl, [], by simp⟩

theorem Advances.trans {s t u : State} (hst : Advances s t) (htu : Advances t u) : Advances s u := by
  obtain ⟨bs, hoffers, hresponses, hbytes⟩ := hst.outputs
  obtain ⟨cs, hoffers', hresponses', hbytes'⟩ := htu.outputs
  refine ⟨hst.delivered.trans htu.delivered, hst.sent.trans htu.sent, bs ++ cs, ?_, ?_, ?_⟩
  · rw [hoffers, hoffers', List.append_assoc]
  · rw [hresponses', hresponses, List.flatMap_append, List.append_assoc]
  · rw [hbytes', hbytes, List.flatMap_append, List.append_assoc]

/-- Every turn but a reset edge advances the block. -/
theorem advances_of_takes {turn : Turn} {s t : State} (hready : AgentsReady s) (htakes : Takes turn s t) : Advances s t := by
  obtain ⟨-, hturn⟩ := htakes
  cases turn with
  | accept =>
    obtain ⟨b, rest, hoffers, -, rfl⟩ := (takeTurn_accept_next_iff s t).1 hturn
    exact ⟨List.prefix_rfl, List.prefix_rfl, [b], by simp [hoffers]⟩
  | respond =>
    obtain ⟨-, -, r, rest, hrq, rfl⟩ := (deliverResponse_next_iff s t).1 hturn
    exact ⟨List.prefix_append _ _, List.prefix_rfl, [], by simp [hrq]⟩
  | emit =>
    obtain ⟨-, -, e, rest, hoq, rfl⟩ := (deliverByte_next_iff s t).1 hturn
    exact ⟨List.prefix_rfl, List.prefix_append _ _, [], by simp [hoq]⟩
  | reset =>
    obtain ⟨hrst, -⟩ := (resetBlock_next_iff s t).1 hturn
    simp [hready] at hrst
  | drive p =>
    obtain rfl := (drivePins_next_iff p s t).1 hturn
    exact ⟨List.prefix_rfl, List.prefix_rfl, [], by simp⟩

section
variable {s t : State} (hadvances : Advances s t)
include hadvances

/-- No response that waits or was delivered is lost (R34, R36). -/
theorem Advances.responses_prefix : s.delivered ++ s.rq <+: t.delivered ++ t.rq := by
  obtain ⟨bs, -, hresponses, -⟩ := hadvances.outputs
  exact hresponses ▸ List.prefix_append _ _

/-- No byte that waits or was sent is lost (R34, R38). -/
theorem Advances.bytes_prefix : s.sent ++ s.oq <+: t.sent ++ t.oq := by
  obtain ⟨bs, -, -, hbytes⟩ := hadvances.outputs
  exact hbytes ▸ List.prefix_append _ _

/-- With no command left to accept, the run is over once all that waited has been delivered (R122). -/
theorem Advances.endOfRun (hoffers : s.offers = []) (hresponses : s.delivered ++ s.rq <+: t.delivered)
    (hbytes : s.sent ++ s.oq <+: t.sent) : EndOfRun t := by
  obtain ⟨bs, hsplit, hrq, hoq⟩ := hadvances.outputs
  obtain ⟨rfl, hnone⟩ := List.append_eq_nil_iff.1 (hsplit.symm.trans hoffers)
  simp only [List.flatMap_nil, List.append_nil] at hrq hoq
  rw [← hrq] at hresponses
  rw [← hoq] at hbytes
  exact ⟨hnone, by simpa using hresponses.length_le, by simpa using hbytes.length_le⟩

end

/-! ### Weakly fair deliveries -/

/-- A queue that again and again is empty or has a further entry taken from it hands over all that it holds, when no entry is lost on the way. -/
theorem exists_all_taken {α : Type} {taken waiting : Nat → List α} {n : Nat}
    (hkept : ∀ m, n ≤ m → taken n ++ waiting n <+: taken m ++ waiting m)
    (hprogress : ∀ m, n ≤ m → ∃ m', m ≤ m' ∧ (waiting m' = [] ∨ (taken m).length < (taken m').length)) :
    ∃ m, n ≤ m ∧ taken n ++ waiting n <+: taken m := by
  have hreach (k : Nat) : ∃ m, n ≤ m ∧ (waiting m = [] ∨ k ≤ (taken m).length) := by
    induction k with
    | zero => exact ⟨n, le_rfl, .inr (Nat.zero_le _)⟩
    | succ k ih =>
      obtain ⟨m, hm, hempty | hk⟩ := ih
      · exact ⟨m, hm, .inl hempty⟩
      · obtain ⟨m', hm', hempty | hmore⟩ := hprogress m hm
        · exact ⟨m', hm.trans hm', .inl hempty⟩
        · exact ⟨m', hm.trans hm', .inr (Nat.succ_le_of_lt (hk.trans_lt hmore))⟩
  obtain ⟨m, hm, hempty | hlong⟩ := hreach (taken n ++ waiting n).length
  · exact ⟨m, hm, by simpa [hempty] using hkept m hm⟩
  · exact ⟨m, hm, List.prefix_of_prefix_length_le (hkept m hm) (List.prefix_append _ _) hlong⟩

/-- A weakly fair kind of turn that is enabled while something waits is taken, unless at some moment nothing waits. -/
theorem WeaklyFair.exists_empty_or_taken {α : Type} {turn : Turn} {states : Nat → State} {turns : Nat → Turn}
    (hfair : WeaklyFair turn states turns) (waiting : State → List α) (n : Nat)
    (henabled : ∀ m, n ≤ m → waiting (states m) ≠ [] → ∃ t, Takes turn (states m) t) :
    ∃ m, n ≤ m ∧ (waiting (states m) = [] ∨ turns m = turn) := by
  by_cases hempty : ∃ m, n ≤ m ∧ waiting (states m) = []
  case pos =>
    obtain ⟨m, hm, hnone⟩ := hempty
    exact ⟨m, hm, .inl hnone⟩
  case neg =>
    obtain ⟨m, hm, hturn⟩ := hfair n fun m hm => henabled m hm fun hnone => hempty ⟨m, hm, hnone⟩
    exact ⟨m, hm, .inr hturn⟩

section
variable {states : Nat → State} {turns : Nat → Turn} {n : Nat} (hrun : IsRun states turns)
  (hready : ∀ m, n ≤ m → AgentsReady (states m))
include hrun hready

theorem IsRun.advances {m m' : Nat} (hm : n ≤ m) (hm' : m ≤ m') : Advances (states m) (states m') := by
  induction m', hm' using Nat.le_induction with
  | base => exact .refl _
  | succ k hk ih => exact ih.trans (advances_of_takes (hready k (hm.trans hk)) (hrun k))

/-- Every response that waits is delivered when Respond is weakly fair (R122). -/
theorem IsRun.exists_responses_delivered (hfair : WeaklyFair .respond states turns) :
    ∃ m, n ≤ m ∧ (states n).delivered ++ (states n).rq <+: (states m).delivered := by
  apply exists_all_taken (taken := fun m => (states m).delivered) (waiting := fun m => (states m).rq)
  · exact fun m hm => (hrun.advances hready le_rfl hm).responses_prefix
  · intro m hm
    have henabled (k : Nat) (hk : m ≤ k) (hwaits : (states k).rq ≠ []) : ∃ t, Takes .respond (states k) t := by
      obtain ⟨r, rest, hrq⟩ := List.exists_cons_of_ne_nil hwaits
      exact ⟨_, (takes_respond_iff (hready k (hm.trans hk)) _).2 ⟨isRun_hosts_le hrun k, r, rest, hrq, rfl⟩⟩
    obtain ⟨m', hm', hempty | hturn⟩ := hfair.exists_empty_or_taken State.rq m henabled
    · exact ⟨m', hm', .inl hempty⟩
    · have hlonger := (hrun.advances hready hm hm').delivered.length_le
      obtain ⟨-, r, rest, -, hpop⟩ := (takes_respond_iff (hready m' (hm.trans hm')) _).1 (hturn ▸ hrun m')
      exact ⟨m' + 1, hm'.trans m'.le_succ, .inr (by simpa [hpop] using hlonger)⟩

/-- Every byte that waits is delivered when Emit is weakly fair (R122). -/
theorem IsRun.exists_bytes_sent (hfair : WeaklyFair .emit states turns) :
    ∃ m, n ≤ m ∧ (states n).sent ++ (states n).oq <+: (states m).sent := by
  apply exists_all_taken (taken := fun m => (states m).sent) (waiting := fun m => (states m).oq)
  · exact fun m hm => (hrun.advances hready le_rfl hm).bytes_prefix
  · intro m hm
    have henabled (k : Nat) (hk : m ≤ k) (hwaits : (states k).oq ≠ []) : ∃ t, Takes .emit (states k) t := by
      obtain ⟨e, rest, hoq⟩ := List.exists_cons_of_ne_nil hwaits
      exact ⟨_, (takes_emit_iff (hready k (hm.trans hk)) _).2 ⟨isRun_hosts_le hrun k, e, rest, hoq, rfl⟩⟩
    obtain ⟨m', hm', hempty | hturn⟩ := hfair.exists_empty_or_taken State.oq m henabled
    · exact ⟨m', hm', .inl hempty⟩
    · have hlonger := (hrun.advances hready hm hm').sent.length_le
      obtain ⟨-, e, rest, -, hpop⟩ := (takes_emit_iff (hready m' (hm.trans hm')) _).1 (hturn ▸ hrun m')
      exact ⟨m' + 1, hm'.trans m'.le_succ, .inr (by simpa [hpop] using hlonger)⟩

end

/-! ### The stop at the end of a run -/

/-- No turn stops with the name that is kept for the plan's end. -/
theorem takeTurn_ne_runEnded (turn : Turn) (s : State) : takeTurn turn s ≠ .fault .runEnded := by
  cases turn with
  | accept =>
    rw [takeTurn, acceptOffer]
    cases hoffers : s.offers with
    | nil => simp
    | cons b rest =>
      obtain ⟨r, bs, -, hcommit⟩ := acceptBeat_is_commit b
      simp only [hcommit, commit, blockedBy]
      split_ifs <;> simp
  | respond =>
    rw [takeTurn, deliverResponse]
    cases s.rq <;> split_ifs <;> simp
  | emit =>
    rw [takeTurn, deliverByte]
    cases s.oq <;> split_ifs <;> simp
  | reset =>
    rw [takeTurn, resetBlock]
    split_ifs <;> simp
  | drive p => simp [takeTurn, drivePins]

/-- A step says that the run is over exactly when the plan and the run are both at their end (R122). -/
theorem step_runEnded_iff (s : State) : step s = .fault .runEnded ↔ s.hosts ≤ 1 ∧ s.turns = [] ∧ EndOfRun s := by
  by_cases hhosts : s.hosts ≤ 1
  case neg => simp [step_secondHost (Nat.lt_of_not_le hhosts), hhosts]
  case pos =>
    cases hturns : s.turns with
    | nil =>
      rw [← runIsOver_iff, step, stepTurn, if_neg hhosts.not_gt, hturns]
      cases runIsOver s <;> simp [hhosts]
    | cons turn ts => simp [step_of_turn hhosts hturns, takeTurn_ne_runEnded]

/-- Settles O54: the bounded drain, the two fair deliveries, of which the later one ends the run, and the stop. -/
theorem drainDeliversEverything : Obligations.DrainDeliversEverything := by
  refine ⟨fun s ts hhosts hready hturns => run_drain hhosts hready hturns, ?_, step_runEnded_iff⟩
  intro states turns n hrun hfairRespond hfairEmit hready
  obtain ⟨i, hi, hresponses⟩ := hrun.exists_responses_delivered hready hfairRespond
  obtain ⟨j, hj, hbytes⟩ := hrun.exists_bytes_sent hready hfairEmit
  refine ⟨⟨i, hi, hresponses⟩, ⟨j, hj, hbytes⟩, fun hoffers => ⟨max i j, hi.trans (le_max_left i j), ?_⟩⟩
  have hafter := hrun.advances hready le_rfl (hi.trans (le_max_left i j))
  exact hafter.endOfRun hoffers (hresponses.trans (hrun.advances hready hi (le_max_left i j)).delivered)
    (hbytes.trans (hrun.advances hready hj (le_max_right i j)).sent)

end Sys2Proof.Machine
end
